-- ==== Sys2Proof/Word.lean ====
section
/-! DEFINITION. The two value types of the machine: words and addresses (spec/00_scope.md R7, R8, R13). -/

namespace Sys2Proof

/-- A word: the content of one memory address, an operand, a queue element, the relative base. R7: an unbounded
mathematical integer; nothing overflows, wraps, saturates or truncates. -/
abbrev Word := Int

/-- An address that has passed its sign check, and every value of the instruction pointer. R8: a natural number with no
upper bound. -/
abbrev Addr := Nat

end Sys2Proof
end

