-- ==== Sys2Proof/Config.lean ====
section
/-! DEFINITION. What the spec fixes as constants of the machine (spec/00_scope.md section 4, spec/10_state.md R38). The
spec leaves no value of a step open, so this file holds no free value. -/

namespace Sys2Proof.Config

/-- R38, R60, R251: `ip` after construction and after `reset`; every program is entered here. -/
abbrev entryPoint : Addr := 0

/-- R24, R38: the relative base "starts at 0". -/
abbrev initialRelativeBase : Word := 0

/-- R28, R51: what an address reads as that was never written and is not in the image. -/
abbrev unsetWord : Word := 0

end Sys2Proof.Config
end

