-- ==== Sys2Proof/Syntax.lean ====
section
/-! DEFINITION. The ten instructions of spec/opcode_table.json with their operands (spec/30_encoding.md R75, R76). -/

namespace Sys2Proof

/-- The three addressing modes (spec/40_instruction_cycle.md R108). -/
inductive Mode where
  | position
  | immediate
  | relative
  deriving DecidableEq, Repr

/-- One parameter of an instruction: its addressing mode and its parameter word (R70, R77). -/
structure Operand where
  mode : Mode
  word : Word
  deriving DecidableEq, Repr

/-- One constructor per row of spec/opcode_table.json, the parameters in the order of R76: `a` and `b` are read operands,
`dest` is a write operand. -/
inductive Instr where
  /-- Operation code 1, R130. -/
  | add (a b dest : Operand)
  /-- Operation code 2, R131. -/
  | mul (a b dest : Operand)
  /-- Operation code 3, R140 and R141. -/
  | input (dest : Operand)
  /-- Operation code 4, R142. -/
  | output (a : Operand)
  /-- Operation code 5, R150. -/
  | jumpIfTrue (a b : Operand)
  /-- Operation code 6, R151. -/
  | jumpIfFalse (a b : Operand)
  /-- Operation code 7, R160. -/
  | lessThan (a b dest : Operand)
  /-- Operation code 8, R161. -/
  | equals (a b dest : Operand)
  /-- Operation code 9, R170. -/
  | adjustRelativeBase (a : Operand)
  /-- Operation code 99, R180. -/
  | halt
  deriving DecidableEq, Repr

end Sys2Proof
end

