-- ==== Sys2Proof/Decode.lean ====
section
/-! DEFINITION. The Instruction Decoder and, after it, the encoder (spec/30_encoding.md). All arithmetic is on decimal
digits by division and remainder (R79); no word is turned into text and no number of digits is assumed. -/

namespace Sys2Proof

/-! ## Decimal digits of an instruction word -/

/-- R11: the decimal digit of `w` at position `j`, units at position 0. -/
def digit (w j : Nat) : Nat := w / 10 ^ j % 10

/-- R71: the operation code of a non-negative instruction word. -/
def opcode (w : Nat) : Nat := w % 100

/-- R72: the mode digit of parameter `k`, counted from 1. -/
def mode (w k : Nat) : Nat := digit w (k + 1)

/-- The decimal digits of `r`, units first, at most `fuel` of them, none above the leading digit. -/
def digitsUpTo : Nat → Nat → List Nat
  | 0, _ => []
  | fuel + 1, r => if r = 0 then [] else r % 10 :: digitsUpTo fuel (r / 10)

/-- R73: the decoder block's own output, the operation code and the list of the remaining digits, parameter 1 first.
`w / 100` rounds of the loop are more than it can run. -/
def decodeWord (w : Nat) : Nat × List Nat := (opcode w, digitsUpTo (w / 100) (w / 100))

/-! ## Modes and operands -/

/-- R212: the two causes of an InvalidOperand fault. -/
inductive OperandReason where
  /-- A write operand in immediate mode (R82). -/
  | immediateWrite
  /-- A mode digit from 3 to 9 (R83). -/
  | unknownMode
  deriving DecidableEq, Repr

/-- Why the decode phase rejects an instruction (R104, R106). -/
inductive DecodeError where
  /-- R80, R81: a negative word, or an operation code that is not in the table. -/
  | invalidOpcode
  /-- R82, R83: the first offending parameter, its mode digit and the cause. -/
  | invalidOperand (param mode : Nat) (reason : OperandReason)
  deriving DecidableEq, Repr

/-- R108: the mode a digit stands for; the digits 3 to 9 stand for none (R83). -/
def Mode.ofDigit : Nat → Option Mode
  | 0 => some .position
  | 1 => some .immediate
  | 2 => some .relative
  | _ => none

/-- R108: the digit a mode is written with. -/
def Mode.digit : Mode → Nat
  | .position => 0
  | .immediate => 1
  | .relative => 2

/-- R106 for a read operand: parameter `k` of the word `w`, with parameter word `p`. -/
def readOperand (w k : Nat) (p : Word) : Except DecodeError Operand :=
  match Mode.ofDigit (mode w k) with
  | some m => .ok ⟨m, p⟩
  | none => .error (.invalidOperand k (mode w k) .unknownMode)

/-- R106 for a write operand: as `readOperand`, and immediate mode is illegal too (R82). -/
def writeOperand (w k : Nat) (p : Word) : Except DecodeError Operand :=
  match Mode.ofDigit (mode w k) with
  | some .immediate => .error (.invalidOperand k 1 .immediateWrite)
  | some m => .ok ⟨m, p⟩
  | none => .error (.invalidOperand k (mode w k) .unknownMode)

/-! ## Formats (R75) and the opcode map (R76) -/

/-- Format `R1`. -/
def decodeR1 (mk : Operand → Instr) (w : Nat) (p1 : Word) : Except DecodeError Instr := do
  let a ← readOperand w 1 p1
  return mk a

/-- Format `W1`. -/
def decodeW1 (mk : Operand → Instr) (w : Nat) (p1 : Word) : Except DecodeError Instr := do
  let dest ← writeOperand w 1 p1
  return mk dest

/-- Format `RR`. -/
def decodeRR (mk : Operand → Operand → Instr) (w : Nat) (p1 p2 : Word) : Except DecodeError Instr := do
  let a ← readOperand w 1 p1
  let b ← readOperand w 2 p2
  return mk a b

/-- Format `RRW`. -/
def decodeRRW (mk : Operand → Operand → Operand → Instr) (w : Nat) (p1 p2 p3 : Word) :
    Except DecodeError Instr := do
  let a ← readOperand w 1 p1
  let b ← readOperand w 2 p2
  let dest ← writeOperand w 3 p3
  return mk a b dest

/-- R76: the opcode map over a non-negative word. Digits of parameters the instruction does not have are not looked at
(R84), and an operation code outside the table is rejected before any mode digit is (R81, R104). -/
def decodeFields (w : Nat) (p1 p2 p3 : Word) : Except DecodeError Instr :=
  match opcode w with
  | 1 => decodeRRW .add w p1 p2 p3
  | 2 => decodeRRW .mul w p1 p2 p3
  | 3 => decodeW1 .input w p1
  | 4 => decodeR1 .output w p1
  | 5 => decodeRR .jumpIfTrue w p1 p2
  | 6 => decodeRR .jumpIfFalse w p1 p2
  | 7 => decodeRRW .lessThan w p1 p2 p3
  | 8 => decodeRRW .equals w p1 p2 p3
  | 9 => decodeR1 .adjustRelativeBase w p1
  | 99 => .ok .halt
  | _ => .error .invalidOpcode

/-- Word `k` of a list that stands for consecutive addresses; beyond its end an address reads as unset (R51, R89). -/
def wordAt (ws : List Word) (k : Nat) : Word := ws.getD k Config.unsetWord

/-- The decode phase of R102 on the words from `ip` upward: total, a rejection named by its cause. A negative
instruction word is rejected before any division (R80). -/
def decode (ws : List Word) : Except DecodeError Instr :=
  if wordAt ws 0 < 0 then .error .invalidOpcode
  else decodeFields (wordAt ws 0).toNat (wordAt ws 1) (wordAt ws 2) (wordAt ws 3)

/-! ## Widths and the encoder -/

/-- R76: the operation code of an instruction. -/
def Instr.opcode : Instr → Nat
  | .add _ _ _ => 1
  | .mul _ _ _ => 2
  | .input _ => 3
  | .output _ => 4
  | .jumpIfTrue _ _ => 5
  | .jumpIfFalse _ _ => 6
  | .lessThan _ _ _ => 7
  | .equals _ _ _ => 8
  | .adjustRelativeBase _ => 9
  | .halt => 99

/-- R76: the parameters of an instruction in order. -/
def Instr.operands : Instr → List Operand
  | .add a b dest => [a, b, dest]
  | .mul a b dest => [a, b, dest]
  | .input dest => [dest]
  | .output a => [a]
  | .jumpIfTrue a b => [a, b]
  | .jumpIfFalse a b => [a, b]
  | .lessThan a b dest => [a, b, dest]
  | .equals a b dest => [a, b, dest]
  | .adjustRelativeBase a => [a]
  | .halt => []

/-- The write operand of an instruction with its parameter index (R75, R76), if it has one. -/
def Instr.dest : Instr → Option (Nat × Operand)
  | .add _ _ dest => some (3, dest)
  | .mul _ _ dest => some (3, dest)
  | .input dest => some (1, dest)
  | .output _ => none
  | .jumpIfTrue _ _ => none
  | .jumpIfFalse _ _ => none
  | .lessThan _ _ dest => some (3, dest)
  | .equals _ _ dest => some (3, dest)
  | .adjustRelativeBase _ => none
  | .halt => none

/-- R76, R78: the width of an instruction in words, the instruction word included. -/
def Instr.width : Instr → Nat
  | .add _ _ _ => 4
  | .mul _ _ _ => 4
  | .input _ => 2
  | .output _ => 2
  | .jumpIfTrue _ _ => 3
  | .jumpIfFalse _ _ => 3
  | .lessThan _ _ _ => 4
  | .equals _ _ _ => 4
  | .adjustRelativeBase _ => 2
  | .halt => 1

/-- R70, R87: the canonical instruction word, operation code plus 100, 1000 and 10000 times the mode digits. -/
def instrWord (op m1 m2 m3 : Nat) : Word := ((op + 100 * m1 + 1000 * m2 + 10000 * m3 : Nat) : Int)

/-- Format `RRW` (R75). -/
def encodeRRW (op : Nat) (a b dest : Operand) : List Word :=
  [instrWord op a.mode.digit b.mode.digit dest.mode.digit, a.word, b.word, dest.word]

/-- Format `RR` (R75). -/
def encodeRR (op : Nat) (a b : Operand) : List Word :=
  [instrWord op a.mode.digit b.mode.digit 0, a.word, b.word]

/-- Formats `R1` and `W1` (R75). -/
def encodeOne (op : Nat) (a : Operand) : List Word :=
  [instrWord op a.mode.digit 0 0, a.word]

/-- R75, R87: the canonical words of an instruction. -/
def encode : Instr → List Word
  | .add a b dest => encodeRRW 1 a b dest
  | .mul a b dest => encodeRRW 2 a b dest
  | .input dest => encodeOne 3 dest
  | .output a => encodeOne 4 a
  | .jumpIfTrue a b => encodeRR 5 a b
  | .jumpIfFalse a b => encodeRR 6 a b
  | .lessThan a b dest => encodeRRW 7 a b dest
  | .equals a b dest => encodeRRW 8 a b dest
  | .adjustRelativeBase a => encodeOne 9 a
  | .halt => [instrWord 99 0 0 0]

/-! ## Words as spec/opcode_table.json numbers them -/

/-- The words of an instruction given as one number: the first word is the number itself, an unbounded decimal integer
(R7, R91), and every later word is 0. The table gives no parameter word any bits. -/
def tableWords (_nbits w : Nat) : List Word := [(w : Int), 0, 0, 0]

/-- What the decoder reads from an instruction word given as a number (log 7). -/
def decodeTableWord (nbits w : Nat) : Option Instr :=
  match decode (tableWords nbits w) with
  | .ok i => some i
  | .error _ => none

end Sys2Proof
end

