-- ==== Sys2Proof/Machine/Memory.lean ====
section
/-! DEFINITION. The Memory Store (spec/20_memory.md R50 to R55): a sparse list of words by address in one canonical
form, so that equal memories (R28, D3) are equal data. -/

namespace Sys2Proof.Machine

/-- R28: the addresses that hold a word other than the unset one, with their words. In canonical form (`Memory.wf`) the
addresses strictly rise. -/
abbrev Memory := List (Addr × Word)

/-- R213: what an address was for. -/
inductive Access where
  | read
  | write
  | jump
  deriving DecidableEq, Repr

/-- The Memory Store's own error (R50): the negative address and the access that met it. -/
structure AddressFault where
  addr : Int
  access : Access
  deriving DecidableEq, Repr

namespace Memory

/-- The canonical form: addresses strictly rise, and no entry equals what an unlisted address reads as. -/
def wf (m : Memory) : Bool :=
  decide (m.Pairwise (fun c d => c.1 < d.1)) && m.all (fun c => decide (c.2 ≠ Config.unsetWord))

/-- R51 at a non-negative address: the word held, or the unset word. -/
def read : Memory → Addr → Word
  | [], _ => Config.unsetWord
  | (b, v) :: m, a => if a = b then v else read m a

/-- Forget what an address holds. -/
def erase (m : Memory) (a : Addr) : Memory := m.filter (fun c => decide (c.1 ≠ a))

/-- Hold `v` at `a`, keeping the addresses in order. -/
def insert : Memory → Addr → Word → Memory
  | [], a, v => [(a, v)]
  | (b, u) :: m, a, v =>
    if a < b then (a, v) :: (b, u) :: m
    else if a = b then (a, v) :: m
    else (b, u) :: insert m a v

/-- R52 at a non-negative address: exactly one address changes. Writing the unset word removes the entry, since an
address holding 0 and an address never written are the same (R28). -/
def write (m : Memory) (a : Addr) (v : Word) : Memory :=
  if v = Config.unsetWord then erase m a else insert m a v

/-- R250: the memory an image stands for; addresses it omits hold 0. -/
def ofImage (image : List (Addr × Word)) : Memory := image.foldl (fun m c => write m c.1 c.2) []

/-- R51: `MemRead(addr, 1)` for an integer address, with the sign check. -/
def readAt (m : Memory) (addr : Int) : Except AddressFault Word :=
  if addr < 0 then .error ⟨addr, .read⟩ else .ok (m.read addr.toNat)

/-- R52: `MemWrite(addr, 1, v)` for an integer address, with the sign check. -/
def writeAt (m : Memory) (addr : Int) (v : Word) : Except AddressFault Memory :=
  if addr < 0 then .error ⟨addr, .write⟩ else .ok (m.write addr.toNat v)

end Memory

end Sys2Proof.Machine
end

