-- ==== Sys2Proof/Machine/State.lean ====
section
/-! DEFINITION. The state of one machine (spec/10_state.md R20), its fault record (R27), the reasons a step could stop, and
the state after reset (R38). -/

namespace Sys2Proof.Machine

/-- R26: the engine's state register. -/
inductive EngineState where
  /-- Runnable: the engine may execute the instruction at `ip`. -/
  | running
  /-- An input instruction found the queue empty (R141). -/
  | awaitingInput
  /-- A halt instruction was executed; terminal (R180). -/
  | halted
  /-- A fault was raised; terminal (R215). -/
  | faulted
  deriving DecidableEq, Repr

/-- R210: the three kinds of fault. -/
inductive FaultKind where
  | invalidOpcode
  | invalidOperand
  | invalidAddress
  deriving DecidableEq, Repr

/-- R27: the kind of a fault with the fields that kind has. -/
inductive FaultCause where
  /-- R211. -/
  | invalidOpcode
  /-- R212: the first offending parameter, its mode digit, the cause. -/
  | invalidOperand (param mode : Nat) (reason : OperandReason)
  /-- R213: the parameter, its mode digit, the negative address, what it was for. -/
  | invalidAddress (param mode : Nat) (addr : Int) (access : Access)
  deriving DecidableEq, Repr

/-- R27: the fault record: the address of the faulting instruction, the word fetched there, and the cause. -/
structure FaultRecord where
  ip : Addr
  word : Word
  cause : FaultCause
  deriving DecidableEq, Repr

/-- Reasons a step could stop the model itself. There is none: every fault of this hardware is a transition to the state
`faulted` with a record (R215), which is a next state, so `step` never answers a fault of the model (log 17). -/
inductive Fault where
  deriving DecidableEq, Repr

/-- Reasons a step could be refused. -/
inductive Refusal where
  /-- Raised only by an arm of Dispatch.lean whose instruction has no meaning yet. No arm raises it. Safe: the model stops. -/
  | notModelled (mnemonic : String)
  deriving DecidableEq, Repr

/-- R20: one machine instance has exactly this state and no other. -/
structure State where
  /-- R28: the working memory. -/
  mem : Memory
  /-- R22: the instruction pointer. -/
  ip : Addr
  /-- R24: the relative base. -/
  rb : Word
  /-- R31: the input queue, oldest element first. -/
  inq : List Word
  /-- R32: the output sequence, newest element last. -/
  out : List Word
  /-- R34: an opaque label with no behaviour (log 9). -/
  identity : Option String
  /-- R26: the engine's state. -/
  state : EngineState
  /-- R27: the fault record, absent unless `state` is `faulted`. -/
  fault : Option FaultRecord
  /-- R29: the canonical image, from which `reset` restores the memory. -/
  canon : Memory
  /-- R33: how many elements of `out` earlier calls of `run` have returned. -/
  outMark : Nat
  deriving DecidableEq, Repr

/-- R38: the machine right after reset. No image is placed: it is the machine constructed from the empty image (log 6). -/
def State.reset : State where
  mem := []
  ip := Config.entryPoint
  rb := Config.initialRelativeBase
  inq := []
  out := []
  identity := none
  state := .running
  fault := none
  canon := []
  outMark := 0

end Sys2Proof.Machine
end

