-- ==== Sys2Proof/Machine/Ops.lean ====
section
/-! DEFINITION. The named operations on State that the meanings are built from: the fetch, the one store, the advance, the
queues, and taking a fault (spec/60_exceptions.md R215). There is no return from a fault beside it: R219, "There is no
trap-return instruction and no handler"; the ways on are the driver's (Machine/Driver.lean). -/

namespace Sys2Proof.Machine

/-- R210: the kind of a cause. -/
def FaultCause.kind : FaultCause → FaultKind
  | .invalidOpcode => .invalidOpcode
  | .invalidOperand _ _ _ => .invalidOperand
  | .invalidAddress _ _ _ _ => .invalidAddress

/-- The fault cause of a rejection by the decode phase (R104, R106). -/
def decodeCause : DecodeError → FaultCause
  | .invalidOpcode => .invalidOpcode
  | .invalidOperand k m r => .invalidOperand k m r

namespace State

/-- R102 FETCH, R107: the words at `ip` and the three addresses after it. Reads have no side effects (R59), so reading
all four words is the same as reading those the instruction has (log 15). -/
def fetchWords (s : State) : List Word :=
  [s.mem.read s.ip, s.mem.read (s.ip + 1), s.mem.read (s.ip + 2), s.mem.read (s.ip + 3)]

/-- R215: `fault` gets the record, `state` becomes `faulted`, nothing else changes. The word recorded is the one at `ip`,
which the step has not changed (R103; log 5). -/
def raise (s : State) (c : FaultCause) : State :=
  { s with fault := some ⟨s.ip, s.mem.read s.ip, c⟩, state := .faulted }

/-- R52, R113: the one write of a step, at an address already checked. -/
def store (s : State) (a : Addr) (v : Word) : State := { s with mem := s.mem.write a v }

/-- R22: assign the instruction pointer. -/
def setIp (s : State) (a : Addr) : State := { s with ip := a }

/-- R114: go on to the next instruction, `n` words further. -/
def advance (s : State) (n : Nat) : State := s.setIp (s.ip + n)

/-- R31: the input queue after its first element is taken. -/
def setInq (s : State) (rest : List Word) : State := { s with inq := rest }

/-- R32: append to the output sequence. -/
def emit (s : State) (v : Word) : State := { s with out := s.out ++ [v] }

/-- R170: add to the relative base. -/
def adjustBase (s : State) (v : Word) : State := { s with rb := s.rb + v }

/-- R141: suspend; nothing but `state` changes. -/
def suspend (s : State) : State := { s with state := .awaitingInput }

/-- R180: halt; nothing but `state` changes. -/
def stop (s : State) : State := { s with state := .halted }

end State

/-- R103: a step that found a fault takes it, from the state the step began in; one that found none completes. -/
def finish (s : State) (r : Except FaultCause State) : Host.Outcome State Fault Refusal :=
  match r with
  | .ok t => .next t
  | .error c => .next (s.raise c)

/-- R101, R195, R233: outside `running` the engine executes nothing and nothing changes (log 3). -/
def idle (s : State) : Host.Outcome State Fault Refusal := .next s

end Sys2Proof.Machine
end

