-- ==== Sys2Proof/Machine/Operands.lean ====
section
/-! DEFINITION. Operand resolution: the addressing modes for read and write operands (spec/40_instruction_cycle.md R107 to
R112). Parameter words come with the decoded operand; they were read from `mem` at the start of the step (R107). -/

namespace Sys2Proof.Machine

/-- The integer an operand names as an address: the parameter word in position mode, the exact sum with `rb` in relative
mode (R108), none in immediate mode. -/
def operandAddress (s : State) (o : Operand) : Option Int :=
  match o.mode with
  | .position => some o.word
  | .immediate => none
  | .relative => some (s.rb + o.word)

/-- R53, R213: an address must not be negative; otherwise the fault of parameter `k` in mode `m`. -/
def checkedAddress (k : Nat) (m : Mode) (access : Access) (a : Int) : Except FaultCause Addr :=
  if a < 0 then .error (.invalidAddress k m.digit a access) else .ok a.toNat

/-- R109, `RdVal(k)`: the value of parameter `k` taken as a read operand. -/
def readValue (s : State) (k : Nat) (o : Operand) : Except FaultCause Word :=
  match operandAddress s o with
  | none => .ok o.word
  | some a =>
    match s.mem.readAt a with
    | .ok v => .ok v
    | .error e => .error (.invalidAddress k o.mode.digit e.addr e.access)

/-- R110, R111, `WrAddr(k)`: the address parameter `k` names as a write operand, with no further indirection. Immediate
mode has no address (R82); the decode phase has rejected it. -/
def writeAddr (s : State) (k : Nat) (o : Operand) : Except FaultCause Addr :=
  match operandAddress s o with
  | none => .error (.invalidOperand k o.mode.digit .immediateWrite)
  | some a => checkedAddress k o.mode .write a

/-- R82, R106: the mode check of a write operand, which comes before any operand is resolved (log 16). -/
def checkDest (k : Nat) (o : Operand) : Except FaultCause Unit :=
  if o.mode = .immediate then .error (.invalidOperand k o.mode.digit .immediateWrite) else .ok ()

/-- R112: both read operands, parameter 1 first, whether or not the instruction will use both. -/
def resolveRR (s : State) (a b : Operand) : Except FaultCause (Word × Word) := do
  let x ← readValue s 1 a
  let y ← readValue s 2 b
  return (x, y)

/-- R106 and R112 for the format `RRW`: the mode check, then the two values and the destination address in order. -/
def resolveRRW (s : State) (a b dest : Operand) : Except FaultCause (Word × Word × Addr) := do
  checkDest 3 dest
  let x ← readValue s 1 a
  let y ← readValue s 2 b
  let d ← writeAddr s 3 dest
  return (x, y, d)

/-- R106 and R110 for the format `W1`. -/
def resolveW (s : State) (dest : Operand) : Except FaultCause Addr := do
  checkDest 1 dest
  writeAddr s 1 dest

/-- R152: a taken jump goes to the value of operand `b`, unless that is negative. -/
def jumpTo (s : State) (b : Operand) (target : Word) : Except FaultCause State := do
  let t ← checkedAddress 2 b.mode .jump target
  return s.setIp t

/-- The execute phase shared by the format `RRW`: store `f a b` at the destination and advance by 4. -/
def execRRW (f : Word → Word → Word) (a b dest : Operand) (s : State) : Host.Outcome State Fault Refusal :=
  finish s do
    let (x, y, d) ← resolveRRW s a b dest
    return (s.store d (f x y)).advance 4

/-- The execute phase shared by the two jumps: go to `b` if `taken a`, else advance by 3. -/
def execJump (taken : Word → Bool) (a b : Operand) (s : State) : Host.Outcome State Fault Refusal :=
  finish s do
    let (x, y) ← resolveRR s a b
    if taken x then jumpTo s b y else return s.advance 3

end Sys2Proof.Machine
end

