-- ==== Sys2Proof/Machine/Arithmetic.lean ====
section
/-! DEFINITION. add and multiply (spec/41_arithmetic.md R130 to R132), exact in the integers. -/

namespace Sys2Proof.Machine

/-- R130: dest = a + b, width 4. -/
def execAdd (a b dest : Operand) (s : State) : Host.Outcome State Fault Refusal :=
  execRRW (fun x y => x + y) a b dest s

/-- R131: dest = a * b, width 4. -/
def execMul (a b dest : Operand) (s : State) : Host.Outcome State Fault Refusal :=
  execRRW (fun x y => x * y) a b dest s

end Sys2Proof.Machine
end

