-- ==== Sys2Proof/Machine/Flags.lean ====
section
/-! DEFINITION. The machine has no flags (spec/10_state.md R25): a compare writes the word 1 or 0 to memory and a
conditional jump tests a word against 0. These are those two computations. -/

namespace Sys2Proof.Machine

/-- R160, R161: the word a compare writes, exactly 1 or exactly 0. -/
def truthWord (b : Bool) : Word := if b then 1 else 0

/-- R150: "true" is any non-zero word, negative included. -/
def isNonZero (v : Word) : Bool := v != 0

end Sys2Proof.Machine
end

