-- ==== Sys2Proof/Machine/Compare.lean ====
section
/-! DEFINITION. less-than and equals (spec/44_compare.md R160, R161). -/

namespace Sys2Proof.Machine

/-- R160: dest = 1 if a < b else 0, in the signed order of the integers, width 4. -/
def execLessThan (a b dest : Operand) (s : State) : Host.Outcome State Fault Refusal :=
  execRRW (fun x y => truthWord (decide (x < y))) a b dest s

/-- R161: dest = 1 if a = b else 0, width 4. -/
def execEquals (a b dest : Operand) (s : State) : Host.Outcome State Fault Refusal :=
  execRRW (fun x y => truthWord (decide (x = y))) a b dest s

end Sys2Proof.Machine
end

