-- ==== Sys2Proof/Machine/Halt.lean ====
section
/-! DEFINITION. halt (spec/46_halt.md R180). -/

namespace Sys2Proof.Machine

/-- R180: the state becomes `halted`; `ip` is not advanced. -/
def execHalt (s : State) : Host.Outcome State Fault Refusal := .next s.stop

end Sys2Proof.Machine
end

