-- ==== Sys2Proof/Machine/InputOutput.lean ====
section
/-! DEFINITION. input and output (spec/42_input_output.md R140 to R143). -/

namespace Sys2Proof.Machine

/-- R140, R141: the checks come first; then the oldest element of the queue is taken and stored, width 2, or, with the
queue empty, the machine suspends with `ip` unchanged. -/
def execInput (dest : Operand) (s : State) : Host.Outcome State Fault Refusal :=
  finish s do
    let d ← resolveW s dest
    match s.inq with
    | [] => return s.suspend
    | x :: rest => return ((s.setInq rest).store d x).advance 2

/-- R142: append a to the output sequence, width 2. -/
def execOutput (a : Operand) (s : State) : Host.Outcome State Fault Refusal :=
  finish s do
    let x ← readValue s 1 a
    return (s.emit x).advance 2

end Sys2Proof.Machine
end

