-- ==== Sys2Proof/Machine/Jumps.lean ====
section
/-! DEFINITION. The conditional jumps (spec/43_jumps.md R150 to R153). -/

namespace Sys2Proof.Machine

/-- R150: if a ≠ 0 then ip = b, else ip += 3. -/
def execJumpIfTrue (a b : Operand) (s : State) : Host.Outcome State Fault Refusal :=
  execJump isNonZero a b s

/-- R151: if a = 0 then ip = b, else ip += 3. -/
def execJumpIfFalse (a b : Operand) (s : State) : Host.Outcome State Fault Refusal :=
  execJump (fun v => !isNonZero v) a b s

end Sys2Proof.Machine
end

