-- ==== Sys2Proof/Machine/RelativeBase.lean ====
section
/-! DEFINITION. adjust-relative-base (spec/45_relative_base.md R170). -/

namespace Sys2Proof.Machine

/-- R170: rb += a, width 2; a relative operand is read with the base before the update. -/
def execAdjustRelativeBase (a : Operand) (s : State) : Host.Outcome State Fault Refusal :=
  finish s do
    let x ← readValue s 1 a
    return (s.adjustBase x).advance 2

end Sys2Proof.Machine
end

