-- ==== Sys2Proof/Machine/Step.lean ====
section
/-! DEFINITION. One step of the engine (spec/40_instruction_cycle.md R102) and the placing of an instruction where the
next step fetches. -/

namespace Sys2Proof.Machine

/-- R102: fetch at `ip`, decode, execute; a rejection by the decoder is taken as its fault (R215). Only `running` executes
(R100, R101). -/
def step (s : State) : Host.Outcome State Fault Refusal :=
  match s.state with
  | .running =>
    match decode s.fetchWords with
    | .ok i => exec i s
    | .error e => .next (s.raise (decodeCause e))
  | .awaitingInput => idle s
  | .halted => idle s
  | .faulted => idle s

/-- The words of a table row stored from `ip` upward, in a machine that may run (log 6, log 7). -/
def State.withFetchWord (s : State) (nbits w : Nat) : State :=
  { s with
    mem := (tableWords nbits w).zipIdx.foldl (fun m c => m.write (s.ip + c.2) c.1) s.mem
    state := .running
    fault := none }

end Sys2Proof.Machine
end

