-- ==== Sys2Proof/Machine/Accesses.lean ====
section
/-! DEFINITION. The memory accesses of one step, in order (spec/20_memory.md R65). Nothing observes them; a statement says
that a step depends on the words at these addresses alone. -/

namespace Sys2Proof.Machine

/-- R65: one access: the instruction word `I`, a parameter word `P k`, a memory operand `O k`, the write `W`. -/
inductive MemAccess where
  | word (addr : Addr)
  | parameter (k : Nat) (addr : Addr)
  | operand (k : Nat) (addr : Addr)
  | store (addr : Addr)
  deriving DecidableEq, Repr

/-- The address of an access that reads; none for the write. -/
def MemAccess.readAddr : MemAccess → Option Addr
  | .word a => some a
  | .parameter _ a => some a
  | .operand _ a => some a
  | .store _ => none

/-- Resolution has not faulted. -/
def resolved {α : Type} (r : Except FaultCause α) : Bool :=
  match r with
  | .ok _ => true
  | .error _ => false

/-- `P k`, and `O k` where the mode is position or relative and the address is not negative. -/
def operandReads (s : State) (k : Nat) (o : Operand) : List MemAccess :=
  .parameter k (s.ip + k) ::
    match operandAddress s o with
    | none => []
    | some a => if a < 0 then [] else [.operand k a.toNat]

/-- The reads of two read operands; a fault of the first stops the list. -/
def pairReads (s : State) (a b : Operand) : List MemAccess :=
  operandReads s 1 a ++ if resolved (readValue s 1 a) then operandReads s 2 b else []

/-- `P k` of a write operand, and `W` where the address is good and the instruction stores. -/
def destAccesses (s : State) (k : Nat) (dest : Operand) (stores : Bool) : List MemAccess :=
  .parameter k (s.ip + k) ::
    match writeAddr s k dest with
    | .ok d => if stores then [.store d] else []
    | .error _ => []

/-- The format `RRW`: `P1, O1, P2, O2, P3, W`. -/
def tripleAccesses (s : State) (a b dest : Operand) : List MemAccess :=
  if dest.mode = .immediate then []
  else pairReads s a b ++ if resolved (resolveRR s a b) then destAccesses s 3 dest true else []

/-- R65: the accesses after `I` of a decoded instruction. -/
def instrAccesses (i : Instr) (s : State) : List MemAccess :=
  match i with
  | .add a b dest => tripleAccesses s a b dest
  | .mul a b dest => tripleAccesses s a b dest
  | .lessThan a b dest => tripleAccesses s a b dest
  | .equals a b dest => tripleAccesses s a b dest
  | .input dest => if dest.mode = .immediate then [] else destAccesses s 1 dest (decide (s.inq ≠ []))
  | .output a => operandReads s 1 a
  | .adjustRelativeBase a => operandReads s 1 a
  | .jumpIfTrue a b => pairReads s a b
  | .jumpIfFalse a b => pairReads s a b
  | .halt => []

/-- R65: the accesses of the step a running machine takes, in order. -/
def stepAccesses (s : State) : List MemAccess :=
  .word s.ip ::
    match decode s.fetchWords with
    | .ok i => instrAccesses i s
    | .error _ => []

/-- The addresses a step reads. -/
def stepReads (s : State) : List Addr := (stepAccesses s).filterMap MemAccess.readAddr

end Sys2Proof.Machine
end

