-- ==== Sys2Proof/Machine/Driver.lean ====
section
/-! DEFINITION. The driver's five operations on one machine (spec/47_host_operations.md, spec/70_reset_and_hazards.md R250 to
R255) and their schedule against the engine's steps (R191, R198, R201). -/

namespace Sys2Proof.Machine

/-! ## new_machine and reset -/

/-- R250: an image is a finite mapping with no negative address; a list that names an address twice is no mapping (log 10). -/
def imageOk (image : List (Int × Word)) : Bool :=
  image.all (fun c => decide (0 ≤ c.1)) && decide (image.map Prod.fst).Nodup

/-- R89, R250: the image a list of words stands for, address 0 upward. -/
def imageOfList (ws : List Word) : List (Int × Word) := ws.zipIdx.map (fun c => ((c.2 : Int), c.1))

/-- R251: the state of a machine constructed from a memory. -/
def constructed (m : Memory) (identity : Option String) : State where
  mem := m
  ip := Config.entryPoint
  rb := Config.initialRelativeBase
  inq := []
  out := []
  identity := identity
  state := .running
  fault := none
  canon := m
  outMark := 0

/-- R250, R251: `new_machine`; a bad image makes no machine (U14). -/
def newMachine (image : List (Int × Word)) (identity : Option String) : Option State :=
  if imageOk image then
    some (constructed (Memory.ofImage (image.map (fun c => (c.1.toNat, c.2)))) identity)
  else none

/-- R254, R255: `reset`; `canon` and `identity` stay. -/
def driverReset (s : State) : State :=
  { s with
    mem := s.canon
    ip := Config.entryPoint
    rb := Config.initialRelativeBase
    inq := []
    out := []
    outMark := 0
    state := .running
    fault := none }

/-! ## push_input, peek_state, run -/

/-- R197: `push_input`. -/
def pushInput (v : Word) (s : State) : State := { s with inq := s.inq ++ [v] }

/-- R199: `peek_state`. -/
def peekState (s : State) : EngineState := s.state

/-- What a call of `run` returns (R192, C12): the new output, the state, and the record if it is `faulted`. -/
structure RunResult where
  output : List Word
  state : EngineState
  fault : Option FaultRecord
  deriving DecidableEq, Repr

/-- R193: a call of `run` on a suspended machine makes it runnable again. -/
def beginRun (s : State) : State :=
  if s.state = .awaitingInput then { s with state := .running } else s

/-- R194: as `run` returns: the output since the previous call, the state and the record, and the mark moved up. -/
def endRun (s : State) : RunResult × State :=
  (⟨s.out.drop s.outMark, s.state, if s.state = .faulted then s.fault else none⟩,
    { s with outMark := s.out.length })

/-- R192: the dispatch loop under a number of steps; none if it is still running after them (R196, D23: fuel is a
device of the executor, and running out of it is no state of the machine; log 11). -/
def runLoop : Nat → State → Option State
  | 0, s => if s.state = .running then none else some s
  | fuel + 1, s =>
    if s.state = .running then
      match step s with
      | .next t => runLoop fuel t
      | .fault r => nomatch r
      | .refused _ => none
    else some s

/-- R192: `run` under a number of steps: the result returned and the machine after it. -/
def run (fuel : Nat) (s : State) : Option (RunResult × State) := (runLoop fuel (beginRun s)).map endRun

/-! ## The schedule of one machine's driver and engine -/

/-- A machine together with whether a call of `run` on it is in progress, which is the driver's state (log 12). -/
structure Session where
  machine : State
  inRun : Bool
  deriving DecidableEq, Repr

/-- What can happen to a machine between two of its states (R101, R190): each is one atomic transaction. -/
inductive DriverEvent where
  /-- The driver calls `run`. -/
  | callRun
  /-- The engine executes one step inside that call. -/
  | engineStep
  /-- The call returns. -/
  | returnRun
  /-- The driver pushes a value, at any moment between two steps (R191, R198). -/
  | pushInput (v : Word)
  /-- The driver calls `reset`. -/
  | reset
  /-- The driver calls `peek_state`. -/
  | peek
  deriving DecidableEq, Repr

/-- R191, R192, R198, R201: one event. None where the spec gives no transition: a second `run` or a `reset` while a call
is in progress (U13), a step outside a call or outside `running` (R100, R101), a return while still `running` (R192). -/
def Session.fire (e : DriverEvent) (x : Session) : Option Session :=
  match e with
  | .callRun => if x.inRun then none else some ⟨beginRun x.machine, true⟩
  | .engineStep =>
    if x.inRun && decide (x.machine.state = .running) then
      match step x.machine with
      | .next t => some ⟨t, true⟩
      | .fault r => nomatch r
      | .refused _ => none
    else none
  | .returnRun =>
    if x.inRun && decide (x.machine.state ≠ .running) then some ⟨(endRun x.machine).2, false⟩ else none
  | .pushInput v => some ⟨Machine.pushInput v x.machine, x.inRun⟩
  | .reset => if x.inRun then none else some ⟨driverReset x.machine, false⟩
  | .peek => some x

/-- A sequence of events, each possible where it stands. -/
def Session.fireAll : List DriverEvent → Session → Option Session
  | [], x => some x
  | e :: es, x => (x.fire e).bind (Session.fireAll es)

/-- The value an event appends to the input queue (R197). -/
def DriverEvent.pushed : DriverEvent → Option Word
  | .pushInput v => some v
  | .callRun => none
  | .engineStep => none
  | .returnRun => none
  | .reset => none
  | .peek => none

/-- The values an event returns to the driver (R194); only a returning `run` returns any. -/
def Session.returned (e : DriverEvent) (x : Session) : List Word :=
  match e with
  | .returnRun => (endRun x.machine).1.output
  | .callRun => []
  | .engineStep => []
  | .pushInput _ => []
  | .reset => []
  | .peek => []

end Sys2Proof.Machine
end

