-- ==== Sys2Proof/Machine/Pipeline.lean ====
section
/-! DEFINITION. Several machines connected by the driver (spec/60_exceptions.md R228 to R231): independent copies of the
one machine, and wires on which the driver carries values in order (log 13). -/

namespace Sys2Proof.Machine

/-- R229: the driver's connection from machine `src` to machine `dst`, with the values already returned by `src` and not
yet pushed into `dst`, oldest first. -/
structure Wire where
  src : Nat
  dst : Nat
  pending : List Word
  deriving DecidableEq, Repr

/-- R230: several copies of the one machine and the driver's wires. No state is shared between machines (R228). -/
structure Pipeline where
  machines : List Session
  wires : List Wire
  deriving DecidableEq, Repr

/-- The values machine `m` returned join the end of each wire that starts there. -/
def Wire.collect (m : Nat) (vs : List Word) (w : Wire) : Wire :=
  if w.src = m then { w with pending := w.pending ++ vs } else w

/-- R230: one event of machine `m`; the machines' events may be interleaved in any order. -/
def Pipeline.fireAt (p : Pipeline) (m : Nat) (e : DriverEvent) : Option Pipeline :=
  match p.machines[m]? with
  | none => none
  | some x =>
    match x.fire e with
    | none => none
    | some y =>
      some { machines := p.machines.set m y, wires := p.wires.map (Wire.collect m (x.returned e)) }

/-- R229: the driver pushes the oldest pending value of wire `k` into the wire's target. -/
def Pipeline.deliver (p : Pipeline) (k : Nat) : Option Pipeline :=
  match p.wires[k]? with
  | none => none
  | some w =>
    match w.pending, p.machines[w.dst]? with
    | v :: rest, some x =>
      some
        { machines := p.machines.set w.dst ⟨pushInput v x.machine, x.inRun⟩
          wires := p.wires.set k { w with pending := rest } }
    | _, _ => none

/-- R231: no machine has faulted and none can make progress: each waits for input or has halted, no call of `run` is in
progress, and every queue is empty. Stuck, not final. -/
def Pipeline.stuck (p : Pipeline) : Bool :=
  p.machines.all (fun x => !x.inRun && decide (x.machine.inq = [])
    && (decide (x.machine.state = .awaitingInput) || decide (x.machine.state = .halted)))
  && p.wires.all (fun w => decide (w.pending = []))

end Sys2Proof.Machine
end

