-- ==== Sys2Proof/Machine/Pseudocode.lean ====
section
/-! DEFINITION. The spec's own pseudocode of one step (spec/40_instruction_cycle.md R102), written down a second time as it
stands there: over decimal digits and tables, with no decoded instruction. Nothing in the machine uses it; a statement
says that `step` agrees with it in every running state. -/

namespace Sys2Proof.Machine.Pseudocode

/-- R75: `R` or `W`. -/
inductive ParamKind where
  | R
  | W
  deriving DecidableEq, Repr

/-- R76: the parameter kinds of an operation code; none if it is not in the table. -/
def paramKinds : Nat → Option (List ParamKind)
  | 1 => some [.R, .R, .W]
  | 2 => some [.R, .R, .W]
  | 3 => some [.W]
  | 4 => some [.R]
  | 5 => some [.R, .R]
  | 6 => some [.R, .R]
  | 7 => some [.R, .R, .W]
  | 8 => some [.R, .R, .W]
  | 9 => some [.R]
  | 99 => some []
  | _ => none

/-- R106: the first illegal mode digit from parameter `k` on. -/
def illegalMode (w : Nat) : Nat → List ParamKind → Option FaultCause
  | _, [] => none
  | k, kind :: kinds =>
    if 3 ≤ mode w k then some (.invalidOperand k (mode w k) .unknownMode)
    else if kind = .W ∧ mode w k = 1 then some (.invalidOperand k 1 .immediateWrite)
    else illegalMode w (k + 1) kinds

/-- R107: `P(k)`. -/
def param (s : State) (k : Nat) : Word := s.mem.read (s.ip + k)

/-- R109: `RdVal(k)` by its pseudocode. -/
def rdVal (s : State) (w k : Nat) : Except FaultCause Word :=
  let p := param s k
  if mode w k = 0 then
    if p < 0 then .error (.invalidAddress k 0 p .read) else .ok (s.mem.read p.toNat)
  else if mode w k = 1 then .ok p
  else
    let a := s.rb + p
    if a < 0 then .error (.invalidAddress k 2 a .read) else .ok (s.mem.read a.toNat)

/-- R110: `WrAddr(k)` by its pseudocode. -/
def wrAddr (s : State) (w k : Nat) : Except FaultCause Addr :=
  let a := if mode w k = 0 then param s k else s.rb + param s k
  if a < 0 then .error (.invalidAddress k (mode w k) a .write) else .ok a.toNat

/-- R102 RESOLVE: the values of the read operands in order and the destination address, parameter `k` first. -/
def resolve (s : State) (w : Nat) : Nat → List ParamKind → Except FaultCause (List Word × Addr)
  | _, [] => .ok ([], 0)
  | k, .R :: kinds =>
    match rdVal s w k with
    | .error c => .error c
    | .ok v =>
      match resolve s w (k + 1) kinds with
      | .error c => .error c
      | .ok (vs, d) => .ok (v :: vs, d)
  | k, .W :: kinds =>
    match wrAddr s w k with
    | .error c => .error c
    | .ok d =>
      match resolve s w (k + 1) kinds with
      | .error c => .error c
      | .ok (vs, _) => .ok (vs, d)

/-- R150 to R152: the jump to the value `b`. -/
def jump (s : State) (w : Nat) (b : Word) : State :=
  if b < 0 then s.raise (.invalidAddress 2 (mode w 2) b .jump) else { s with ip := b.toNat }

/-- R102 EXECUTE and ADVANCE: one rule per operation code, over the values and the address that RESOLVE produced. -/
def execute (s : State) (w : Nat) (v1 v2 : Word) (d : Addr) : State :=
  match opcode w with
  | 1 => { s with mem := s.mem.write d (v1 + v2), ip := s.ip + 4 }
  | 2 => { s with mem := s.mem.write d (v1 * v2), ip := s.ip + 4 }
  | 3 =>
    match s.inq with
    | [] => { s with state := .awaitingInput }
    | x :: rest => { s with inq := rest, mem := s.mem.write d x, ip := s.ip + 2 }
  | 4 => { s with out := s.out ++ [v1], ip := s.ip + 2 }
  | 5 => if v1 ≠ 0 then jump s w v2 else { s with ip := s.ip + 3 }
  | 6 => if v1 = 0 then jump s w v2 else { s with ip := s.ip + 3 }
  | 7 => { s with mem := s.mem.write d (if v1 < v2 then 1 else 0), ip := s.ip + 4 }
  | 8 => { s with mem := s.mem.write d (if v1 = v2 then 1 else 0), ip := s.ip + 4 }
  | 9 => { s with rb := s.rb + v1, ip := s.ip + 2 }
  | 99 => { s with state := .halted }
  | _ => s

/-- R102: one step of a running machine. -/
def step (s : State) : State :=
  if s.mem.read s.ip < 0 then s.raise .invalidOpcode
  else
    let w := (s.mem.read s.ip).toNat
    match paramKinds (opcode w) with
    | none => s.raise .invalidOpcode
    | some kinds =>
      match illegalMode w 1 kinds with
      | some c => s.raise c
      | none =>
        match resolve s w 1 kinds with
        | .error c => s.raise c
        | .ok (vs, d) => execute s w (vs.getD 0 0) (vs.getD 1 0) d

end Sys2Proof.Machine.Pseudocode
end

