-- ==== Sys2Proof/Safety.lean ====
section
/-! DEFINITION. What a sound state is (spec/10_state.md R36), in the terms the statements use. -/

namespace Sys2Proof.Machine

/-- R27: what the fields of a recorded cause can be: a parameter is 1, 2 or 3, an unknown mode digit is 3 to 9, an
immediate write is mode 1, a recorded address is negative and its mode is 0, 1 or 2. -/
def FaultCause.sound : FaultCause → Prop
  | .invalidOpcode => True
  | .invalidOperand k m .unknownMode => 1 ≤ k ∧ k ≤ 3 ∧ 3 ≤ m ∧ m ≤ 9
  | .invalidOperand k m .immediateWrite => (k = 1 ∨ k = 3) ∧ m = 1
  | .invalidAddress k m a _ => 1 ≤ k ∧ k ≤ 3 ∧ m ≤ 2 ∧ a < 0

/-- The invariants of R36, and that both memories are in canonical form. Items 1, 2 and 5 are in the types (an address is
a natural number); items 3 and 4 are about transitions and are statements of their own. -/
structure State.Inv (s : State) : Prop where
  memCanonical : s.mem.wf = true
  canonCanonical : s.canon.wf = true
  /-- Item 6. -/
  faultIffFaulted : s.fault.isSome = true ↔ s.state = .faulted
  /-- R27: the record is about the instruction at `ip`. -/
  faultHere : ∀ r, s.fault = some r → r.ip = s.ip ∧ r.word = s.mem.read s.ip ∧ r.cause.sound
  /-- Item 7. -/
  markInRange : s.outMark ≤ s.out.length
  /-- Item 8: a suspended machine stands at an input instruction whose checks passed. -/
  suspendedAtInput : s.state = .awaitingInput →
    0 ≤ s.mem.read s.ip ∧ opcode (s.mem.read s.ip).toNat = 3 ∧
      ∃ dest d, decode s.fetchWords = .ok (.input dest) ∧ writeAddr s 1 dest = .ok d
  /-- Item 9: a halted machine stands at a halt instruction. -/
  haltedAtHalt : s.state = .halted → 0 ≤ s.mem.read s.ip ∧ opcode (s.mem.read s.ip).toNat = 99

/-- R33, R194: while no call of `run` is in progress every output has been returned, since only a `run` executes
instructions (R100) and it moves the mark as it returns. -/
def Session.Settled (x : Session) : Prop := x.inRun = false → x.machine.outMark = x.machine.out.length

/-- Every machine of a pipeline is sound, and settled. -/
def Pipeline.Inv (p : Pipeline) : Prop := ∀ x ∈ p.machines, x.machine.Inv ∧ x.Settled

/-- R26, R100: the terminal states. -/
def EngineState.terminal (e : EngineState) : Bool := decide (e = .halted) || decide (e = .faulted)

/-- R202: a run has ended: halted, suspended or faulted. -/
def State.runEnded (s : State) : Bool := decide (s.state ≠ .running)

end Sys2Proof.Machine
end

