-- ==== Sys2Proof/WellFormed.lean ====
section
/-! DEFINITION. The one check an instruction of Syntax.lean can fail: a write operand in immediate mode
(spec/30_encoding.md R82). -/

namespace Sys2Proof

/-- R110: a write operand is in position or relative mode. -/
def Operand.writable (o : Operand) : Bool := o.mode != .immediate

/-- R82: the write operands are parameter 3 of operation codes 1, 2, 7, 8 and parameter 1 of operation code 3; every
other operand is a read operand, for which all three modes are legal. -/
def Instr.wellFormed : Instr → Bool
  | .add _ _ dest => dest.writable
  | .mul _ _ dest => dest.writable
  | .input dest => dest.writable
  | .output _ => true
  | .jumpIfTrue _ _ => true
  | .jumpIfFalse _ _ => true
  | .lessThan _ _ dest => dest.writable
  | .equals _ _ dest => dest.writable
  | .adjustRelativeBase _ => true
  | .halt => true

end Sys2Proof
end

