-- ==== Sys2Proof/Certificates/Slice0/Obligations.lean ====
section
/-! DEFINITION. The statements about the machine, each from the numbered rules of spec/. A statement about `exec` is about
the execute phase, which does not look at `state`; `step` runs it in `running` alone (R100; log 4). -/

open Sys2Proof Sys2Proof.Machine

/-! ## Encoding -/

/-- Decoding the words of a well-formed instruction gives it back, whatever follows them in memory
(30_encoding.md R70 to R77, R87). -/
def Obligations.DecodeEncodeRoundTrip : Prop :=
  ∀ (i : Instr) (rest : List Word), i.wellFormed = true → decode (encode i ++ rest) = .ok i

/-- R82, R106: no word decodes to an instruction whose write operand is immediate. -/
def Obligations.DecodedInstructionsAreWellFormed : Prop :=
  ∀ (ws : List Word) (i : Instr), decode ws = .ok i → i.wellFormed = true

/-- The other direction of the round trip: encoding a decoded instruction restores its parameter words and its
instruction word up to the surplus digits that R84 ignores. -/
def Obligations.ReencodingLosesOnlySurplusDigits : Prop :=
  ∀ (ws : List Word) (i : Instr), decode ws = .ok i →
    (∃ j : Nat, wordAt ws 0 = wordAt (encode i) 0 + ((j * 10 ^ (i.operands.length + 2) : Nat) : Int)) ∧
    ∀ k, k < i.operands.length → wordAt ws (k + 1) = wordAt (encode i) (k + 1)

/-- Words written out from the spec decode to the instructions they stand for: 30_encoding.md R87, 41 to 46 and
95_test_vectors.md S1, S5, V0. -/
def Obligations.SpecWordsDecode : Prop :=
  decode [21001, 9, 5, -1] = .ok (.add ⟨.position, 9⟩ ⟨.immediate, 5⟩ ⟨.relative, -1⟩) ∧
  decode [1002, 4, 3, 4] = .ok (.mul ⟨.position, 4⟩ ⟨.immediate, 3⟩ ⟨.position, 4⟩) ∧
  decode [203, -3] = .ok (.input ⟨.relative, -3⟩) ∧
  decode [204, -1] = .ok (.output ⟨.relative, -1⟩) ∧
  decode [2105, 1, 1] = .ok (.jumpIfTrue ⟨.immediate, 1⟩ ⟨.relative, 1⟩) ∧
  decode [1006, 101, 0] = .ok (.jumpIfFalse ⟨.position, 101⟩ ⟨.immediate, 0⟩) ∧
  decode [22207, 0, 1, 2] = .ok (.lessThan ⟨.relative, 0⟩ ⟨.relative, 1⟩ ⟨.relative, 2⟩) ∧
  decode [1008, 100, 16, 101] = .ok (.equals ⟨.position, 100⟩ ⟨.immediate, 16⟩ ⟨.position, 101⟩) ∧
  decode [109, 19] = .ok (.adjustRelativeBase ⟨.immediate, 19⟩) ∧
  decode [12399] = .ok .halt ∧
  decode [-1] = .error .invalidOpcode ∧
  decode [5000] = .error .invalidOpcode ∧
  decode [90002, 0, 0, 0] = .error (.invalidOperand 3 9 .unknownMode) ∧
  decode [103, 5] = .error (.invalidOperand 1 1 .immediateWrite)

/-- R73: the decoder block's list of digits has one element per decimal digit of `w div 100`, its element at position `k`
is the mode digit of parameter `k` by R72, and beyond its end the mode digit is 0. -/
def Obligations.DecoderBlockListsTheModeDigits : Prop :=
  (∀ w : Nat, (decodeWord w).1 = w % 100 ∧
    (decodeWord w).2.length = (Nat.digits 10 (w / 100)).length ∧
    (∀ k, 1 ≤ k → (decodeWord w).2.getD (k - 1) 0 = w / 10 ^ (k + 1) % 10) ∧
    (∀ k, (decodeWord w).2.length < k → mode w k = 0) ∧
    (w < 100 → (decodeWord w).2 = [])) ∧
  decodeWord 1002 = (2, [0, 1]) ∧ decodeWord 99 = (99, []) ∧ decodeWord 21101 = (1, [1, 1, 2])

/-- R85 with R80 to R83: a word decodes to an instruction exactly when it is not negative, its operation code is in the
table, and every mode digit of a parameter it has is 0, 1 or 2, and not 1 for a write operand. -/
def Obligations.LegalWordsAreExactlyTheDecodable : Prop :=
  ∀ ws : List Word, (∃ i, decode ws = .ok i) ↔
    0 ≤ wordAt ws 0 ∧ ∃ kinds, Pseudocode.paramKinds (opcode (wordAt ws 0).toNat) = some kinds ∧
      ∀ k kind, kinds[k]? = some kind →
        mode (wordAt ws 0).toNat (k + 1) < 3 ∧ (kind = .W → mode (wordAt ws 0).toNat (k + 1) ≠ 1)

/-- R84: two words that agree in the operation code and in the mode digits of the parameters the instruction has are
decoded alike, before the same parameter words: to the same instruction or to the same rejection. -/
def Obligations.SurplusDigitsAreIgnored : Prop :=
  ∀ (w w' : Nat) (kinds : List Pseudocode.ParamKind) (params : List Word),
    Pseudocode.paramKinds (opcode w) = some kinds → opcode w' = opcode w →
    (∀ k, k < kinds.length → mode w' (k + 1) = mode w (k + 1)) →
    decode ((w' : Int) :: params) = decode ((w : Int) :: params)

/-! ## The three faults -/

/-- R80, R81, R211: a negative word or an operation code outside the table faults with InvalidOpcode, recording `ip` and
the whole word and changing nothing else; and a step records InvalidOpcode for no other word. -/
def Obligations.IllegalOpcodesFault : Prop :=
  ∀ s : State, s.state = .running →
    ((s.mem.read s.ip < 0 ∨ s.mem.read s.ip % 100 ∉ ([1, 2, 3, 4, 5, 6, 7, 8, 9, 99] : List Int)) →
      step s = .next { s with state := .faulted, fault := some ⟨s.ip, s.mem.read s.ip, .invalidOpcode⟩ }) ∧
    (s.fault = none → ∀ t r, step s = .next t → t.fault = some r → r.cause = .invalidOpcode →
      s.mem.read s.ip < 0 ∨ s.mem.read s.ip % 100 ∉ ([1, 2, 3, 4, 5, 6, 7, 8, 9, 99] : List Int))

/-- R82, R83, R106: the first parameter whose mode digit is illegal faults with InvalidOperand, recording the parameter,
its digit and the reason and changing nothing else, whatever the parameter words are. -/
def Obligations.IllegalModesFault : Prop :=
  ∀ (s : State) (kinds : List Pseudocode.ParamKind) (k : Nat) (kind : Pseudocode.ParamKind),
    s.state = .running → 0 ≤ s.mem.read s.ip →
    Pseudocode.paramKinds (opcode (s.mem.read s.ip).toNat) = some kinds → kinds[k]? = some kind →
    (∀ j kj, j < k → kinds[j]? = some kj → mode (s.mem.read s.ip).toNat (j + 1) < 3 ∧
      (kj = .W → mode (s.mem.read s.ip).toNat (j + 1) ≠ 1)) →
    (3 ≤ mode (s.mem.read s.ip).toNat (k + 1) →
      step s = .next { s with
        state := .faulted
        fault := some ⟨s.ip, s.mem.read s.ip,
          .invalidOperand (k + 1) (mode (s.mem.read s.ip).toNat (k + 1)) .unknownMode⟩ }) ∧
    (kind = .W → mode (s.mem.read s.ip).toNat (k + 1) = 1 →
      step s = .next { s with
        state := .faulted
        fault := some ⟨s.ip, s.mem.read s.ip, .invalidOperand (k + 1) 1 .immediateWrite⟩ })

/-- R112, R214 for add, multiply, less-than and equals: the address of `a` is checked first, then that of `b`, then that of
`dest`; the first bad one is the fault taken. The first clause is the model's choice (log 16): no word decodes to an immediate
destination (R82, R106), and `exec` of one takes the fault the decode phase would have taken, before any address. -/
def Obligations.ThreeOperandFaultsComeInOrder : Prop :=
  ∀ (a b dest : Operand) (s : State) (i : Instr),
    (i = .add a b dest ∨ i = .mul a b dest ∨ i = .lessThan a b dest ∨ i = .equals a b dest) →
    (dest.mode = .immediate → exec i s = .next (s.raise (.invalidOperand 3 1 .immediateWrite))) ∧
    (dest.mode ≠ .immediate →
      (∀ c, readValue s 1 a = .error c → exec i s = .next (s.raise c)) ∧
      (∀ x c, readValue s 1 a = .ok x → readValue s 2 b = .error c → exec i s = .next (s.raise c)) ∧
      ∀ x y c, readValue s 1 a = .ok x → readValue s 2 b = .ok y → writeAddr s 3 dest = .error c →
        exec i s = .next (s.raise c))

/-- R112, R152, R153 for the two jumps: the address of `a`, then that of `b`, taken or not; then, for a taken jump alone, a
negative target. A jump that is not taken goes on by 3, a negative target or not. `taken` is the instruction's own condition. -/
def Obligations.JumpFaultsComeInOrder : Prop :=
  ∀ (a b : Operand) (s : State) (i : Instr) (taken : Word → Prop),
    ((i = .jumpIfTrue a b ∧ ∀ x, taken x ↔ x ≠ 0) ∨ (i = .jumpIfFalse a b ∧ ∀ x, taken x ↔ x = 0)) →
    (∀ c, readValue s 1 a = .error c → exec i s = .next (s.raise c)) ∧
    (∀ x c, readValue s 1 a = .ok x → readValue s 2 b = .error c → exec i s = .next (s.raise c)) ∧
    ∀ x y, readValue s 1 a = .ok x → readValue s 2 b = .ok y →
      (taken x → y < 0 → exec i s = .next (s.raise (.invalidAddress 2 b.mode.digit y .jump))) ∧
      (¬taken x → exec i s = .next { s with ip := s.ip + 3 })

/-- R140, R141, R142, R170: an input whose address is bad takes no element and never suspends; output and
adjust-relative-base fault with the address of their operand. The first clause is the model's choice (log 16): no word decodes
to an input with an immediate destination (R82, R106), and `exec` of one takes the fault the decode phase would have taken. -/
def Obligations.OneOperandFaultsComeFirst : Prop :=
  ∀ (o : Operand) (s : State) (c : FaultCause),
    (o.mode = .immediate → exec (.input o) s = .next (s.raise (.invalidOperand 1 1 .immediateWrite))) ∧
    (o.mode ≠ .immediate → writeAddr s 1 o = .error c → exec (.input o) s = .next (s.raise c)) ∧
    (readValue s 1 o = .error c →
      exec (.output o) s = .next (s.raise c) ∧ exec (.adjustRelativeBase o) s = .next (s.raise c))

/-- R215: a step that ends in `faulted` has set `state` and `fault` and nothing else, and the record carries the `ip` and
the word of the faulting instruction. -/
def Obligations.FaultsArePrecise : Prop :=
  ∀ s t : State, s.state = .running → step s = .next t → t.state = .faulted →
    ∃ c, t = { s with state := .faulted, fault := some ⟨s.ip, s.mem.read s.ip, c⟩ }

/-! ## Memory and operands -/

/-- R55: a read returns the latest write to its address, or the image's value, or 0; a write changes no other address. -/
def Obligations.ReadReturnsTheLatestWrite : Prop :=
  (∀ (m : Memory) (a : Addr) (v : Word), (m.write a v).read a = v) ∧
  (∀ (m : Memory) (a b : Addr) (v : Word), b ≠ a → (m.write a v).read b = m.read b) ∧
  (∀ (m : Memory) (a : Addr) (v w : Word), ((m.write a v).write a w).read a = w) ∧
  ∀ (image writes : List (Addr × Word)) (a : Addr),
    (writes.foldl (fun m c => m.write c.1 c.2) (Memory.ofImage image)).read a =
      (((image ++ writes).reverse.find? (fun c => decide (c.1 = a))).map Prod.snd).getD 0

/-- R51, R52: the Memory Store's two operations on integer addresses: a negative address fails and names the access;
otherwise a read returns the word and a write changes that one address. -/
def Obligations.MemoryStoreContract : Prop :=
  ∀ (m : Memory) (addr : Int) (v : Word),
    (addr < 0 → m.readAt addr = .error ⟨addr, .read⟩ ∧ m.writeAt addr v = .error ⟨addr, .write⟩) ∧
    (0 ≤ addr → m.readAt addr = .ok (m.read addr.toNat) ∧
      ∃ m', m.writeAt addr v = .ok m' ∧ m'.read addr.toNat = v ∧
        ∀ b, b ≠ addr.toNat → m'.read b = m.read b)

/-- R28, D3: two memories in canonical form are equal exactly when they agree at every address. -/
def Obligations.MemoriesThatReadAlikeAreEqual : Prop :=
  ∀ m m' : Memory, m.wf = true → m'.wf = true → ((∀ a, m.read a = m'.read a) ↔ m = m')

/-- R109: the value of a read operand in each of the three modes. -/
def Obligations.ReadOperandResolvesByMode : Prop :=
  ∀ (s : State) (k : Nat) (p : Word),
    (p < 0 → readValue s k ⟨.position, p⟩ = .error (.invalidAddress k 0 p .read)) ∧
    (0 ≤ p → readValue s k ⟨.position, p⟩ = .ok (s.mem.read p.toNat)) ∧
    readValue s k ⟨.immediate, p⟩ = .ok p ∧
    (s.rb + p < 0 → readValue s k ⟨.relative, p⟩ = .error (.invalidAddress k 2 (s.rb + p) .read)) ∧
    (0 ≤ s.rb + p → readValue s k ⟨.relative, p⟩ = .ok (s.mem.read (s.rb + p).toNat))

/-- R110, R111: the address of a write operand, with no further indirection. -/
def Obligations.WriteOperandResolvesByMode : Prop :=
  ∀ (s : State) (k : Nat) (p : Word),
    (p < 0 → writeAddr s k ⟨.position, p⟩ = .error (.invalidAddress k 0 p .write)) ∧
    (0 ≤ p → writeAddr s k ⟨.position, p⟩ = .ok p.toNat) ∧
    (s.rb + p < 0 → writeAddr s k ⟨.relative, p⟩ = .error (.invalidAddress k 2 (s.rb + p) .write)) ∧
    (0 ≤ s.rb + p → writeAddr s k ⟨.relative, p⟩ = .ok (s.rb + p).toNat)

/-! ## What each instruction does -/

/-- R130, R131: add and multiply complete whenever their three operands resolve, storing the exact sum or product at the
destination and advancing by 4; all else is unchanged. -/
def Obligations.AddAndMultiplyStoreTheResult : Prop :=
  ∀ (a b dest : Operand) (s : State) (x y : Word) (d : Addr),
    readValue s 1 a = .ok x → readValue s 2 b = .ok y → writeAddr s 3 dest = .ok d →
    exec (.add a b dest) s = .next { s with mem := s.mem.write d (x + y), ip := s.ip + 4 } ∧
    exec (.mul a b dest) s = .next { s with mem := s.mem.write d (x * y), ip := s.ip + 4 }

/-- R160, R161: less-than and equals complete whenever their three operands resolve, storing exactly 1 or 0 and advancing
by 4; all else is unchanged. -/
def Obligations.ComparesStoreOneOrZero : Prop :=
  ∀ (a b dest : Operand) (s : State) (x y : Word) (d : Addr),
    readValue s 1 a = .ok x → readValue s 2 b = .ok y → writeAddr s 3 dest = .ok d →
    exec (.lessThan a b dest) s =
      .next { s with mem := s.mem.write d (if x < y then 1 else 0), ip := s.ip + 4 } ∧
    exec (.equals a b dest) s =
      .next { s with mem := s.mem.write d (if x = y then 1 else 0), ip := s.ip + 4 }

/-- R140: input completes whenever its destination resolves and the queue is not empty: it removes the oldest element,
stores it and advances by 2; all else is unchanged. -/
def Obligations.InputTakesTheOldestElement : Prop :=
  ∀ (dest : Operand) (s : State) (d : Addr) (x : Word) (rest : List Word),
    writeAddr s 1 dest = .ok d → s.inq = x :: rest →
    exec (.input dest) s = .next { s with inq := rest, mem := s.mem.write d x, ip := s.ip + 2 }

/-- R141: with its destination resolved and the queue empty, input changes `state` to `awaitingInput` and nothing else. -/
def Obligations.InputSuspendsOnAnEmptyQueue : Prop :=
  ∀ (dest : Operand) (s : State) (d : Addr),
    writeAddr s 1 dest = .ok d → s.inq = [] → exec (.input dest) s = .next { s with state := .awaitingInput }

/-- R142: output completes whenever its operand resolves: it appends the value and advances by 2; all else is
unchanged. -/
def Obligations.OutputAppendsTheValue : Prop :=
  ∀ (a : Operand) (s : State) (x : Word), readValue s 1 a = .ok x →
    exec (.output a) s = .next { s with out := s.out ++ [x], ip := s.ip + 2 }

/-- R150, R151: with both operands resolved, a jump not taken advances by 3 and a taken jump with a target that is not
negative goes there; only `ip` changes. jump-if-true is taken when `a` is not 0, jump-if-false when it is 0. -/
def Obligations.JumpsSetTheInstructionPointer : Prop :=
  ∀ (a b : Operand) (s : State) (x y : Word), readValue s 1 a = .ok x → readValue s 2 b = .ok y →
    (x ≠ 0 → 0 ≤ y → exec (.jumpIfTrue a b) s = .next { s with ip := y.toNat }) ∧
    (x = 0 → exec (.jumpIfTrue a b) s = .next { s with ip := s.ip + 3 }) ∧
    (x = 0 → 0 ≤ y → exec (.jumpIfFalse a b) s = .next { s with ip := y.toNat }) ∧
    (x ≠ 0 → exec (.jumpIfFalse a b) s = .next { s with ip := s.ip + 3 })

/-- R170: adjust-relative-base completes whenever its operand resolves with the old base: it adds the value to `rb` and
advances by 2; all else is unchanged. -/
def Obligations.AdjustRelativeBaseAddsToTheBase : Prop :=
  ∀ (a : Operand) (s : State) (x : Word), readValue s 1 a = .ok x →
    exec (.adjustRelativeBase a) s = .next { s with rb := s.rb + x, ip := s.ip + 2 }

/-- R180: halt always completes and changes `state` alone; any non-negative word whose two lowest digits are 99 is a halt,
with `ip` left at it. -/
def Obligations.HaltChangesTheStateAlone : Prop :=
  (∀ s : State, exec .halt s = .next { s with state := .halted }) ∧
  ∀ s : State, s.state = .running → 0 ≤ s.mem.read s.ip → s.mem.read s.ip % 100 = 99 →
    step s = .next { s with state := .halted }

/-- R64, R261: each storing instruction, input included, completes whenever its operands resolve, and the next fetch sees the
word it stored (the sum, the product, 1 or 0, the element taken), wherever among the fetched words the destination falls, and
the old words elsewhere. -/
def Obligations.StoresAreSeenByTheNextFetch : Prop :=
  ∀ (s : State) (d : Addr) (v : Word) (k : Nat), k < 4 →
    (∀ (a b dest : Operand) (x y : Word) (i : Instr),
      readValue s 1 a = .ok x → readValue s 2 b = .ok y → writeAddr s 3 dest = .ok d →
      (i = .add a b dest ∧ v = x + y ∨ i = .mul a b dest ∧ v = x * y ∨
        i = .lessThan a b dest ∧ v = (if x < y then 1 else 0) ∨
        i = .equals a b dest ∧ v = (if x = y then 1 else 0)) →
      ∃ t, exec i s = .next t ∧ t.ip = s.ip + 4 ∧
        wordAt t.fetchWords k = if s.ip + 4 + k = d then v else s.mem.read (s.ip + 4 + k)) ∧
    ∀ (dest : Operand) (rest : List Word), writeAddr s 1 dest = .ok d → s.inq = v :: rest →
      ∃ t, exec (.input dest) s = .next t ∧ t.ip = s.ip + 2 ∧
        wordAt t.fetchWords k = if s.ip + 2 + k = d then v else s.mem.read (s.ip + 2 + k)

/-! ## Frames -/

/-- Frame of add, multiply, less-than and equals (R130, R131, R160, R161): memory changes at the destination address at
most, and not at all if it does not resolve; `rb`, the queues, the image and the driver's registers never change, and
`state` and `fault` only by a fault. -/
def Obligations.ThreeOperandFrame : Prop :=
  ∀ (a b dest : Operand) (s t : State) (i : Instr),
    (i = .add a b dest ∨ i = .mul a b dest ∨ i = .lessThan a b dest ∨ i = .equals a b dest) →
    exec i s = .next t →
    (∀ d, writeAddr s 3 dest = .ok d → ∀ adr, adr ≠ d → t.mem.read adr = s.mem.read adr) ∧
    (∀ c, writeAddr s 3 dest = .error c → ∀ adr, t.mem.read adr = s.mem.read adr) ∧
    t.rb = s.rb ∧ t.inq = s.inq ∧ t.out = s.out ∧ t.identity = s.identity ∧ t.canon = s.canon ∧
    t.outMark = s.outMark ∧ (t.state = .faulted ∨ t.state = s.state ∧ t.fault = s.fault)

/-- Frame of input (R140, R141): memory changes at the destination address at most, and not at all if it does not resolve
or the queue is empty; at most the oldest element leaves the queue; all else but `ip`, `state` and a fault's record is
unchanged. -/
def Obligations.InputFrame : Prop :=
  ∀ (dest : Operand) (s t : State), exec (.input dest) s = .next t →
    (∀ d, writeAddr s 1 dest = .ok d → ∀ adr, adr ≠ d → t.mem.read adr = s.mem.read adr) ∧
    (s.inq = [] → ∀ adr, t.mem.read adr = s.mem.read adr) ∧
    (∀ c, writeAddr s 1 dest = .error c → t.inq = s.inq ∧ ∀ adr, t.mem.read adr = s.mem.read adr) ∧
    (t.inq = s.inq ∨ t.inq = s.inq.tail) ∧
    t.rb = s.rb ∧ t.out = s.out ∧ t.identity = s.identity ∧ t.canon = s.canon ∧ t.outMark = s.outMark ∧
    (t.state = .faulted ∨ (t.state = s.state ∨ t.state = .awaitingInput) ∧ t.fault = s.fault)

/-- Frame of the instructions that store nothing: output, jump-if-true, jump-if-false, adjust-relative-base and halt (R142,
R150, R151, R170, R180). Memory and the input queue never change; `rb` changes by adjust-relative-base alone and `out` by
output alone; `state` and `fault` change by a fault, or `state` by halt. -/
def Obligations.NonStoringFrame : Prop :=
  ∀ (i : Instr) (s t : State), i.dest = none → exec i s = .next t →
    (∀ adr, t.mem.read adr = s.mem.read adr) ∧ t.inq = s.inq ∧
    ((∀ a, i ≠ .adjustRelativeBase a) → t.rb = s.rb) ∧ ((∀ a, i ≠ .output a) → t.out = s.out) ∧
    t.identity = s.identity ∧ t.canon = s.canon ∧ t.outMark = s.outMark ∧
    (t.state = .faulted ∨ (t.state = s.state ∨ i = .halt ∧ t.state = .halted) ∧ t.fault = s.fault)

/-! ## The step -/

/-- R102: a running machine decodes the words at `ip` and executes the instruction they are, or takes the fault the decode
phase found. Nothing else happens around it. -/
def Obligations.StepRunsTheDecodedInstruction : Prop :=
  ∀ s : State, s.state = .running →
    (∀ i, decode s.fetchWords = .ok i → step s = exec i s) ∧
    (∀ e, decode s.fetchWords = .error e → step s = .next (s.raise (decodeCause e)))

/-- The model's choice (log 3), beside R101, R195 and R233: outside `running` a step changes nothing. -/
def Obligations.StepOutsideRunningChangesNothing : Prop :=
  ∀ s : State, s.state ≠ .running → step s = .next s

/-- Every instruction in every state, and every step, answers a next state: in a running machine no ordinary data and no
illegal word is without one (R85, R210). Three cases are the model's choice and no rule's: `exec` in a state that is not running
(log 4), `exec` of an immediate write operand, which no word decodes to (log 16), and a step outside `running`, to which the
spec gives no transition (log 3). -/
def Obligations.EveryStepAnswersANextState : Prop :=
  (∀ (i : Instr) (s : State), ∃ t, exec i s = .next t) ∧ ∀ s : State, ∃ t, step s = .next t

/-- R102: in every running state the step is the spec's pseudocode, rule for rule. -/
def Obligations.StepFollowsThePseudocode : Prop :=
  ∀ s : State, s.state = .running → step s = .next (Pseudocode.step s)

/-- R103: a step is all or nothing. It halts, suspends or faults, changing `state` (and `fault`) alone; or it completes,
changing `ip`, at most the word at its own destination, and one of `rb`, `inq`, `out` at most. -/
def Obligations.StepIsAllOrNothing : Prop :=
  ∀ s t : State, s.state = .running → step s = .next t →
    t = { s with state := .halted } ∨ t = { s with state := .awaitingInput } ∨ (∃ c, t = s.raise c) ∨
    (t.state = .running ∧ t.fault = s.fault ∧ t.canon = s.canon ∧ t.identity = s.identity ∧
      t.outMark = s.outMark ∧
      (t.mem = s.mem ∨ ∃ i k o d v, decode s.fetchWords = .ok i ∧ i.dest = some (k, o) ∧
        writeAddr s k o = .ok d ∧ t.mem = s.mem.write d v) ∧
      (t.inq = s.inq ∧ t.out = s.out ∨ t.rb = s.rb ∧ t.out = s.out ∨ t.rb = s.rb ∧ t.inq = s.inq))

/-- R114: where a step leaves `ip`: a halt, a suspension and a fault leave it; a taken jump that completes goes to the value
of `b`; everything else that completes goes on by its width. -/
def Obligations.InstructionPointerAfterAStep : Prop :=
  ∀ (s t : State) (i : Instr), s.state = .running → decode s.fetchWords = .ok i → step s = .next t →
    (t.state ≠ .running → t.ip = s.ip) ∧
    (t.state = .running →
      (∀ a b x y, (i = .jumpIfTrue a b ∧ x ≠ 0 ∨ i = .jumpIfFalse a b ∧ x = 0) →
        readValue s 1 a = .ok x → readValue s 2 b = .ok y → 0 ≤ y ∧ t.ip = y.toNat) ∧
      ((∀ a b x, readValue s 1 a = .ok x → ¬(i = .jumpIfTrue a b ∧ x ≠ 0 ∨ i = .jumpIfFalse a b ∧ x = 0)) →
        t.ip = s.ip + i.width))

/-- R24, R36 item 3: a step changes `rb` only by executing adjust-relative-base, and then by its operand's value. -/
def Obligations.OnlyAdjustRelativeBaseChangesTheBase : Prop :=
  ∀ s t : State, step s = .next t → t.rb ≠ s.rb →
    ∃ a x, decode s.fetchWords = .ok (.adjustRelativeBase a) ∧ readValue s 1 a = .ok x ∧ t.rb = s.rb + x

/-- R141, R233: a running machine suspends exactly when it stands at an input instruction whose checks pass and the queue
is empty. -/
def Obligations.OnlyAnEmptyQueueSuspends : Prop :=
  ∀ s t : State, s.state = .running → step s = .next t →
    (t.state = .awaitingInput ↔
      ∃ dest d, decode s.fetchWords = .ok (.input dest) ∧ writeAddr s 1 dest = .ok d ∧ s.inq = [])

/-- R65: a step depends on the words at the addresses it reads alone. Two machines that differ in memory elsewhere take
the same step: every other field comes out equal, and either neither memory changes or both get the same word at the one
address the list names as stored. -/
def Obligations.StepReadsOnlyItsListedWords : Prop :=
  ∀ (s t t' : State) (m : Memory), s.state = .running →
    (∀ a ∈ stepReads s, m.read a = s.mem.read a) →
    step s = .next t → step { s with mem := m } = .next t' →
    t' = { t with mem := t'.mem } ∧
    (t.mem = s.mem ∧ t'.mem = m ∨
      ∃ d v, MemAccess.store d ∈ stepAccesses s ∧ t.mem = s.mem.write d v ∧ t'.mem = m.write d v)

/-- R115, R65: a step makes at most six reads, the instruction word's first, and at most one write, the last access. -/
def Obligations.StepAccessesAreBounded : Prop :=
  ∀ s : State, (stepReads s).length ≤ 6 ∧ (stepAccesses s).head? = some (.word s.ip) ∧
    ∀ j d, (stepAccesses s)[j]? = some (.store d) → j + 1 = (stepAccesses s).length

/-! ## Invariants -/

/-- R36: every step keeps the invariants, from every state that has them. -/
def Obligations.EveryStepKeepsTheInvariant : Prop :=
  ∀ s t : State, s.Inv → step s = .next t → t.Inv

/-- R36, R38: the invariants hold at reset and in every newly constructed machine. -/
def Obligations.StartStatesHaveTheInvariant : Prop :=
  State.reset.Inv ∧ ∀ image identity s, newMachine image identity = some s → s.Inv

/-- R36, R33: whatever the driver and the engine do, in whatever order the schedule allows, a constructed machine stays
sound, and settled. -/
def Obligations.EveryReachableStateIsSound : Prop :=
  ∀ image identity s es x, newMachine image identity = some s →
    Session.fireAll es ⟨s, false⟩ = some x → x.machine.Inv ∧ x.Settled

/-- R36, R33: every event of a machine keeps soundness, from every sound machine, and keeps it settled; and every event and
every delivery in a pipeline keeps the two of all its machines. -/
def Obligations.EveryEventKeepsTheInvariants : Prop :=
  (∀ (e : DriverEvent) (x y : Session), x.machine.Inv → x.fire e = some y → y.machine.Inv) ∧
  (∀ (e : DriverEvent) (x y : Session), x.Settled → x.fire e = some y → y.Settled) ∧
  (∀ (p q : Pipeline) (m : Nat) (e : DriverEvent), p.Inv → p.fireAt m e = some q → q.Inv) ∧
  ∀ (p q : Pipeline) (k : Nat), p.Inv → p.deliver k = some q → q.Inv

/-! ## The driver's operations -/

/-- R250, R251: `new_machine` makes a machine exactly when no address is negative or named twice; every field has its
start value, both memories hold the image's words, and every other address holds 0. That an address named twice makes no
machine is the model's choice (log 10). -/
def Obligations.ConstructionGivesTheStartState : Prop :=
  ∀ (image : List (Int × Word)) (identity : Option String),
    (newMachine image identity = none ↔ (∃ c ∈ image, c.1 < 0) ∨ ¬ (image.map Prod.fst).Nodup) ∧
    ∀ s, newMachine image identity = some s →
      (∀ c ∈ image, s.mem.read c.1.toNat = c.2) ∧
      (∀ a : Addr, (a : Int) ∉ image.map Prod.fst → s.mem.read a = 0) ∧
      s.canon = s.mem ∧ s.ip = 0 ∧ s.rb = 0 ∧ s.inq = [] ∧ s.out = [] ∧ s.outMark = 0 ∧
      s.state = .running ∧ s.fault = none ∧ s.identity = identity

/-- R254, R255: after any history, `reset` gives back the machine as it was constructed, and a second `reset` changes
nothing more. -/
def Obligations.ResetRestoresTheConstructedMachine : Prop :=
  ∀ image identity s es x, newMachine image identity = some s →
    Session.fireAll es ⟨s, false⟩ = some x →
    driverReset x.machine = s ∧ driverReset (driverReset x.machine) = driverReset x.machine

/-- R29, R34: nothing that can happen to a machine changes its canonical image or its label. -/
def Obligations.CanonicalImageNeverChanges : Prop :=
  ∀ (es : List DriverEvent) (x y : Session), Session.fireAll es x = some y →
    y.machine.canon = x.machine.canon ∧ y.machine.identity = x.machine.identity

/-- R101, R219: in a terminal state every event but `reset` leaves all fields alone but `inq`, which a push lengthens, and
the mark, which a returning `run` moves. -/
def Obligations.OnlyResetLeavesATerminalState : Prop :=
  ∀ (e : DriverEvent) (x y : Session), x.machine.state.terminal = true → x.fire e = some y → e ≠ .reset →
    y.machine = { x.machine with inq := y.machine.inq, outMark := y.machine.outMark } ∧
    y.machine.inq = x.machine.inq ++ e.pushed.toList ∧
    (y.machine.outMark ≠ x.machine.outMark → e = .returnRun)

/-- R32: between resets the output sequence only grows at its end. -/
def Obligations.OutputOnlyGrowsUntilReset : Prop :=
  ∀ (es : List DriverEvent) (x y : Session), DriverEvent.reset ∉ es → Session.fireAll es x = some y →
    ∃ new, y.machine.out = x.machine.out ++ new

/-- R31, R143: between resets the values taken from the input queue, followed by those still in it, are the values that
were in it followed by the values pushed, in order. -/
def Obligations.InputIsConsumedInOrder : Prop :=
  ∀ (es : List DriverEvent) (x y : Session), DriverEvent.reset ∉ es → Session.fireAll es x = some y →
    ∃ taken, x.machine.inq ++ es.filterMap DriverEvent.pushed = taken ++ y.machine.inq

/-- R143, R198: a push just before a step and a push just after it come to the same, unless the step suspends. -/
def Obligations.PushAndStepCommute : Prop :=
  ∀ (s t : State) (v : Word), s.state = .running → step s = .next t → t.state ≠ .awaitingInput →
    step (pushInput v s) = .next (pushInput v t)

/-- R192, R194: a `run` that returns leaves a state other than `running`, reports it with the record exactly if it is
`faulted`, and returns the output produced since the previous call: with the part already returned it is all of `out`. -/
def Obligations.RunReturnsTheNewOutput : Prop :=
  ∀ (fuel : Nat) (s t : State) (r : RunResult), s.outMark ≤ s.out.length → run fuel s = some (r, t) →
    s.out.take s.outMark ++ r.output = t.out ∧ t.outMark = t.out.length ∧ t.state ≠ .running ∧
    r.state = t.state ∧ (t.state = .faulted → r.fault = t.fault) ∧ (t.state ≠ .faulted → r.fault = none)

/-- R195: `run` on a halted or faulted machine executes nothing, changes the mark alone, and returns the unreturned
output, the same state and the same record. -/
def Obligations.RunOnATerminalMachineExecutesNothing : Prop :=
  ∀ (fuel : Nat) (s : State), s.state = .halted ∨ s.state = .faulted →
    run fuel s = some (⟨s.out.drop s.outMark, s.state, if s.state = .faulted then s.fault else none⟩,
      { s with outMark := s.out.length })

/-- R193: `run` on a suspended machine retries the input instruction: with the queue still empty it suspends again, having
changed nothing but the mark; with an element there the first step takes it. -/
def Obligations.RunRetriesTheSuspendedInput : Prop :=
  ∀ s : State, s.Inv → s.state = .awaitingInput →
    (s.inq = [] → ∀ fuel, run (fuel + 1) s =
      some (⟨s.out.drop s.outMark, .awaitingInput, none⟩, { s with outMark := s.out.length })) ∧
    ∀ v rest, s.inq = v :: rest → ∃ dest d, decode s.fetchWords = .ok (.input dest) ∧
      writeAddr s 1 dest = .ok d ∧ ∀ fuel, runLoop (fuel + 1) (beginRun s) =
        runLoop fuel { s with state := .running, inq := rest, mem := s.mem.write d v, ip := s.ip + 2 }

/-- R196, D23: the number of steps allowed never changes what a `run` returns. -/
def Obligations.MoreStepsDoNotChangeARun : Prop :=
  ∀ (fuel more : Nat) (s : State) (r : RunResult × State), run fuel s = some r → run (fuel + more) s = some r

/-- R115, R196: a jump-if-true on a non-zero constant to its own address never returns, however many steps are
allowed. -/
def Obligations.AJumpToItselfNeverReturns : Prop :=
  ∀ (s : State) (x : Word), s.state = .running → x ≠ 0 →
    decode s.fetchWords = .ok (.jumpIfTrue ⟨.immediate, x⟩ ⟨.immediate, (s.ip : Int)⟩) →
    ∀ fuel, run fuel s = none

/-- R191, R192: a `run` that returns is a schedule of events: the call, some steps, the return. -/
def Obligations.RunIsAScheduleOfEvents : Prop :=
  ∀ (fuel : Nat) (s t : State) (r : RunResult), run fuel s = some (r, t) →
    ∃ n, n ≤ fuel ∧ Session.fireAll (.callRun :: (List.replicate n .engineStep ++ [.returnRun])) ⟨s, false⟩ =
      some ⟨t, false⟩

/-! ## Several machines -/

/-- R228: an event of one machine leaves every other machine as it was, and lengthens only the wires that start there. -/
def Obligations.MachinesAreIsolated : Prop :=
  ∀ (p q : Pipeline) (m : Nat) (e : DriverEvent), p.fireAt m e = some q →
    (∀ j, j ≠ m → q.machines[j]? = p.machines[j]?) ∧
    ∀ (k : Nat) (w : Wire), p.wires[k]? = some w → ∃ new, q.wires[k]? = some { w with pending := w.pending ++ new } ∧
      (w.src ≠ m → new = []) ∧ (e ≠ .returnRun → new = [])

/-- R229: a wire carries every value once and in order, losing, duplicating and inventing nothing. That a delivery moves one
value, the oldest pending, and that a returning `run` puts all its new output on every wire that starts at its machine, is the
model's choice of batches and wiring, which R229 leaves to the driver (log 13). -/
def Obligations.WiresCarryValuesInOrder : Prop :=
  ∀ (p q : Pipeline) (k : Nat) (w : Wire) (x : Session), p.wires[k]? = some w →
    (p.machines[w.dst]? = some x → p.deliver k = some q →
      ∃ y w', q.machines[w.dst]? = some y ∧ q.wires[k]? = some w' ∧
        y.machine.inq ++ w'.pending = x.machine.inq ++ w.pending ∧
        y.machine = { x.machine with inq := y.machine.inq } ∧ y.inRun = x.inRun ∧
        w'.src = w.src ∧ w'.dst = w.dst ∧ w'.pending.length + 1 = w.pending.length ∧
        (∀ j, j ≠ w.dst → q.machines[j]? = p.machines[j]?) ∧ ∀ j, j ≠ k → q.wires[j]? = p.wires[j]?) ∧
    (p.machines[w.src]? = some x → p.fireAt w.src .returnRun = some q →
      q.wires[k]? = some { w with pending := w.pending ++ x.machine.out.drop x.machine.outMark })

/-- R231: in a stuck pipeline no delivery is possible, and a `run` of any of its machines returns no output and leaves the
machine as it was. The premise is the invariant of EveryEventKeepsTheInvariants: a machine whose output was not all returned
could still put it on a wire. -/
def Obligations.AStuckPipelineMakesNoProgress : Prop :=
  ∀ p : Pipeline, p.stuck = true → p.Inv →
    (∀ k, p.deliver k = none) ∧
    ∀ x ∈ p.machines, ∀ fuel, run (fuel + 1) x.machine = some (⟨[], x.machine.state, none⟩, x.machine)
end

