-- ==== Sys2Proof/Laws/State.lean ====
section
/-! SUPPORT. One lemma per field per update of State, each true by unfolding the update once, so that no later proof
unfolds a record update. -/

namespace Sys2Proof.Machine

variable (s : State)

/-! ## State.raise -/

@[simp] theorem State.raise_mem (c : FaultCause) : (s.raise c).mem = s.mem := rfl
@[simp] theorem State.raise_ip (c : FaultCause) : (s.raise c).ip = s.ip := rfl
@[simp] theorem State.raise_rb (c : FaultCause) : (s.raise c).rb = s.rb := rfl
@[simp] theorem State.raise_inq (c : FaultCause) : (s.raise c).inq = s.inq := rfl
@[simp] theorem State.raise_out (c : FaultCause) : (s.raise c).out = s.out := rfl
@[simp] theorem State.raise_identity (c : FaultCause) : (s.raise c).identity = s.identity := rfl
@[simp] theorem State.raise_state (c : FaultCause) : (s.raise c).state = .faulted := rfl
@[simp] theorem State.raise_fault (c : FaultCause) : (s.raise c).fault = some ⟨s.ip, s.mem.read s.ip, c⟩ := rfl
@[simp] theorem State.raise_canon (c : FaultCause) : (s.raise c).canon = s.canon := rfl
@[simp] theorem State.raise_outMark (c : FaultCause) : (s.raise c).outMark = s.outMark := rfl

/-! ## State.store -/

@[simp] theorem State.store_mem (a : Addr) (v : Word) : (s.store a v).mem = s.mem.write a v := rfl
@[simp] theorem State.store_ip (a : Addr) (v : Word) : (s.store a v).ip = s.ip := rfl
@[simp] theorem State.store_rb (a : Addr) (v : Word) : (s.store a v).rb = s.rb := rfl
@[simp] theorem State.store_inq (a : Addr) (v : Word) : (s.store a v).inq = s.inq := rfl
@[simp] theorem State.store_out (a : Addr) (v : Word) : (s.store a v).out = s.out := rfl
@[simp] theorem State.store_identity (a : Addr) (v : Word) : (s.store a v).identity = s.identity := rfl
@[simp] theorem State.store_state (a : Addr) (v : Word) : (s.store a v).state = s.state := rfl
@[simp] theorem State.store_fault (a : Addr) (v : Word) : (s.store a v).fault = s.fault := rfl
@[simp] theorem State.store_canon (a : Addr) (v : Word) : (s.store a v).canon = s.canon := rfl
@[simp] theorem State.store_outMark (a : Addr) (v : Word) : (s.store a v).outMark = s.outMark := rfl

/-! ## State.setIp -/

@[simp] theorem State.setIp_mem (a : Addr) : (s.setIp a).mem = s.mem := rfl
@[simp] theorem State.setIp_ip (a : Addr) : (s.setIp a).ip = a := rfl
@[simp] theorem State.setIp_rb (a : Addr) : (s.setIp a).rb = s.rb := rfl
@[simp] theorem State.setIp_inq (a : Addr) : (s.setIp a).inq = s.inq := rfl
@[simp] theorem State.setIp_out (a : Addr) : (s.setIp a).out = s.out := rfl
@[simp] theorem State.setIp_identity (a : Addr) : (s.setIp a).identity = s.identity := rfl
@[simp] theorem State.setIp_state (a : Addr) : (s.setIp a).state = s.state := rfl
@[simp] theorem State.setIp_fault (a : Addr) : (s.setIp a).fault = s.fault := rfl
@[simp] theorem State.setIp_canon (a : Addr) : (s.setIp a).canon = s.canon := rfl
@[simp] theorem State.setIp_outMark (a : Addr) : (s.setIp a).outMark = s.outMark := rfl

/-! ## State.advance -/

@[simp] theorem State.advance_mem (n : Nat) : (s.advance n).mem = s.mem := rfl
@[simp] theorem State.advance_ip (n : Nat) : (s.advance n).ip = s.ip + n := rfl
@[simp] theorem State.advance_rb (n : Nat) : (s.advance n).rb = s.rb := rfl
@[simp] theorem State.advance_inq (n : Nat) : (s.advance n).inq = s.inq := rfl
@[simp] theorem State.advance_out (n : Nat) : (s.advance n).out = s.out := rfl
@[simp] theorem State.advance_identity (n : Nat) : (s.advance n).identity = s.identity := rfl
@[simp] theorem State.advance_state (n : Nat) : (s.advance n).state = s.state := rfl
@[simp] theorem State.advance_fault (n : Nat) : (s.advance n).fault = s.fault := rfl
@[simp] theorem State.advance_canon (n : Nat) : (s.advance n).canon = s.canon := rfl
@[simp] theorem State.advance_outMark (n : Nat) : (s.advance n).outMark = s.outMark := rfl

/-! ## State.setInq -/

@[simp] theorem State.setInq_mem (rest : List Word) : (s.setInq rest).mem = s.mem := rfl
@[simp] theorem State.setInq_ip (rest : List Word) : (s.setInq rest).ip = s.ip := rfl
@[simp] theorem State.setInq_rb (rest : List Word) : (s.setInq rest).rb = s.rb := rfl
@[simp] theorem State.setInq_inq (rest : List Word) : (s.setInq rest).inq = rest := rfl
@[simp] theorem State.setInq_out (rest : List Word) : (s.setInq rest).out = s.out := rfl
@[simp] theorem State.setInq_identity (rest : List Word) : (s.setInq rest).identity = s.identity := rfl
@[simp] theorem State.setInq_state (rest : List Word) : (s.setInq rest).state = s.state := rfl
@[simp] theorem State.setInq_fault (rest : List Word) : (s.setInq rest).fault = s.fault := rfl
@[simp] theorem State.setInq_canon (rest : List Word) : (s.setInq rest).canon = s.canon := rfl
@[simp] theorem State.setInq_outMark (rest : List Word) : (s.setInq rest).outMark = s.outMark := rfl

/-! ## State.emit -/

@[simp] theorem State.emit_mem (v : Word) : (s.emit v).mem = s.mem := rfl
@[simp] theorem State.emit_ip (v : Word) : (s.emit v).ip = s.ip := rfl
@[simp] theorem State.emit_rb (v : Word) : (s.emit v).rb = s.rb := rfl
@[simp] theorem State.emit_inq (v : Word) : (s.emit v).inq = s.inq := rfl
@[simp] theorem State.emit_out (v : Word) : (s.emit v).out = s.out ++ [v] := rfl
@[simp] theorem State.emit_identity (v : Word) : (s.emit v).identity = s.identity := rfl
@[simp] theorem State.emit_state (v : Word) : (s.emit v).state = s.state := rfl
@[simp] theorem State.emit_fault (v : Word) : (s.emit v).fault = s.fault := rfl
@[simp] theorem State.emit_canon (v : Word) : (s.emit v).canon = s.canon := rfl
@[simp] theorem State.emit_outMark (v : Word) : (s.emit v).outMark = s.outMark := rfl

/-! ## State.adjustBase -/

@[simp] theorem State.adjustBase_mem (v : Word) : (s.adjustBase v).mem = s.mem := rfl
@[simp] theorem State.adjustBase_ip (v : Word) : (s.adjustBase v).ip = s.ip := rfl
@[simp] theorem State.adjustBase_rb (v : Word) : (s.adjustBase v).rb = s.rb + v := rfl
@[simp] theorem State.adjustBase_inq (v : Word) : (s.adjustBase v).inq = s.inq := rfl
@[simp] theorem State.adjustBase_out (v : Word) : (s.adjustBase v).out = s.out := rfl
@[simp] theorem State.adjustBase_identity (v : Word) : (s.adjustBase v).identity = s.identity := rfl
@[simp] theorem State.adjustBase_state (v : Word) : (s.adjustBase v).state = s.state := rfl
@[simp] theorem State.adjustBase_fault (v : Word) : (s.adjustBase v).fault = s.fault := rfl
@[simp] theorem State.adjustBase_canon (v : Word) : (s.adjustBase v).canon = s.canon := rfl
@[simp] theorem State.adjustBase_outMark (v : Word) : (s.adjustBase v).outMark = s.outMark := rfl

/-! ## State.suspend -/

@[simp] theorem State.suspend_mem : (s.suspend).mem = s.mem := rfl
@[simp] theorem State.suspend_ip : (s.suspend).ip = s.ip := rfl
@[simp] theorem State.suspend_rb : (s.suspend).rb = s.rb := rfl
@[simp] theorem State.suspend_inq : (s.suspend).inq = s.inq := rfl
@[simp] theorem State.suspend_out : (s.suspend).out = s.out := rfl
@[simp] theorem State.suspend_identity : (s.suspend).identity = s.identity := rfl
@[simp] theorem State.suspend_state : (s.suspend).state = .awaitingInput := rfl
@[simp] theorem State.suspend_fault : (s.suspend).fault = s.fault := rfl
@[simp] theorem State.suspend_canon : (s.suspend).canon = s.canon := rfl
@[simp] theorem State.suspend_outMark : (s.suspend).outMark = s.outMark := rfl

/-! ## State.stop -/

@[simp] theorem State.stop_mem : (s.stop).mem = s.mem := rfl
@[simp] theorem State.stop_ip : (s.stop).ip = s.ip := rfl
@[simp] theorem State.stop_rb : (s.stop).rb = s.rb := rfl
@[simp] theorem State.stop_inq : (s.stop).inq = s.inq := rfl
@[simp] theorem State.stop_out : (s.stop).out = s.out := rfl
@[simp] theorem State.stop_identity : (s.stop).identity = s.identity := rfl
@[simp] theorem State.stop_state : (s.stop).state = .halted := rfl
@[simp] theorem State.stop_fault : (s.stop).fault = s.fault := rfl
@[simp] theorem State.stop_canon : (s.stop).canon = s.canon := rfl
@[simp] theorem State.stop_outMark : (s.stop).outMark = s.outMark := rfl

/-! ## The driver's updates -/

@[simp] theorem pushInput_mem (v : Word) : (pushInput v s).mem = s.mem := rfl
@[simp] theorem pushInput_ip (v : Word) : (pushInput v s).ip = s.ip := rfl
@[simp] theorem pushInput_rb (v : Word) : (pushInput v s).rb = s.rb := rfl
@[simp] theorem pushInput_inq (v : Word) : (pushInput v s).inq = s.inq ++ [v] := rfl
@[simp] theorem pushInput_out (v : Word) : (pushInput v s).out = s.out := rfl
@[simp] theorem pushInput_identity (v : Word) : (pushInput v s).identity = s.identity := rfl
@[simp] theorem pushInput_state (v : Word) : (pushInput v s).state = s.state := rfl
@[simp] theorem pushInput_fault (v : Word) : (pushInput v s).fault = s.fault := rfl
@[simp] theorem pushInput_canon (v : Word) : (pushInput v s).canon = s.canon := rfl
@[simp] theorem pushInput_outMark (v : Word) : (pushInput v s).outMark = s.outMark := rfl

@[simp] theorem endRun_mem : (endRun s).2.mem = s.mem := rfl
@[simp] theorem endRun_ip : (endRun s).2.ip = s.ip := rfl
@[simp] theorem endRun_rb : (endRun s).2.rb = s.rb := rfl
@[simp] theorem endRun_inq : (endRun s).2.inq = s.inq := rfl
@[simp] theorem endRun_out : (endRun s).2.out = s.out := rfl
@[simp] theorem endRun_identity : (endRun s).2.identity = s.identity := rfl
@[simp] theorem endRun_state : (endRun s).2.state = s.state := rfl
@[simp] theorem endRun_fault : (endRun s).2.fault = s.fault := rfl
@[simp] theorem endRun_canon : (endRun s).2.canon = s.canon := rfl
@[simp] theorem endRun_outMark : (endRun s).2.outMark = s.out.length := rfl

@[simp] theorem driverReset_mem : (driverReset s).mem = s.canon := rfl
@[simp] theorem driverReset_ip : (driverReset s).ip = Config.entryPoint := rfl
@[simp] theorem driverReset_rb : (driverReset s).rb = Config.initialRelativeBase := rfl
@[simp] theorem driverReset_inq : (driverReset s).inq = [] := rfl
@[simp] theorem driverReset_out : (driverReset s).out = [] := rfl
@[simp] theorem driverReset_identity : (driverReset s).identity = s.identity := rfl
@[simp] theorem driverReset_state : (driverReset s).state = .running := rfl
@[simp] theorem driverReset_fault : (driverReset s).fault = none := rfl
@[simp] theorem driverReset_canon : (driverReset s).canon = s.canon := rfl
@[simp] theorem driverReset_outMark : (driverReset s).outMark = 0 := rfl

@[simp] theorem beginRun_mem : (beginRun s).mem = s.mem := by unfold beginRun; split <;> rfl
@[simp] theorem beginRun_ip : (beginRun s).ip = s.ip := by unfold beginRun; split <;> rfl
@[simp] theorem beginRun_rb : (beginRun s).rb = s.rb := by unfold beginRun; split <;> rfl
@[simp] theorem beginRun_inq : (beginRun s).inq = s.inq := by unfold beginRun; split <;> rfl
@[simp] theorem beginRun_out : (beginRun s).out = s.out := by unfold beginRun; split <;> rfl
@[simp] theorem beginRun_identity : (beginRun s).identity = s.identity := by unfold beginRun; split <;> rfl
@[simp] theorem beginRun_fault : (beginRun s).fault = s.fault := by unfold beginRun; split <;> rfl
@[simp] theorem beginRun_canon : (beginRun s).canon = s.canon := by unfold beginRun; split <;> rfl
@[simp] theorem beginRun_outMark : (beginRun s).outMark = s.outMark := by unfold beginRun; split <;> rfl

/-- R193: only a suspended machine is changed by the call of `run`. -/
theorem beginRun_state :
    (beginRun s).state = if s.state = .awaitingInput then .running else s.state := by
  unfold beginRun; split <;> rfl

/-! ## The words fetched depend on `mem` and `ip` alone -/

theorem fetchWords_congr {s t : State} (hm : t.mem = s.mem) (hi : t.ip = s.ip) : t.fetchWords = s.fetchWords := by
  simp [State.fetchWords, hm, hi]

end Sys2Proof.Machine
end

