-- ==== Sys2Proof/Laws/Driver.lean ====
section
/-! SUPPORT. What each of the driver's operations, each event of a machine and each act on a pipeline can do, said once. -/

namespace Sys2Proof.Machine

variable {s t : State} {x y : Session} {p q : Pipeline} {m k : Nat} {e : DriverEvent}

/-! ## run -/

/-- R193: a call of `run` changes nothing of a machine that is not suspended. -/
theorem beginRun_of_not_awaiting (h : s.state ≠ .awaitingInput) : beginRun s = s := by
  simp [beginRun, h]

/-- R192: the loop stops at once outside `running`. -/
theorem runLoop_of_not_running (fuel : Nat) (h : s.state ≠ .running) : runLoop fuel s = some s := by
  cases fuel <;> simp [runLoop, h]

/-- R192: one turn of the loop. -/
theorem runLoop_succ (fuel : Nat) (hs : s.state = .running) (h : step s = .next t) :
    runLoop (fuel + 1) s = runLoop fuel t := by
  simp [runLoop, hs, h]

/-- R192: what `run` returns is the end of its loop, closed by `endRun`. -/
theorem run_eq_some {fuel : Nat} {r : RunResult × State} :
    run fuel s = some r ↔ ∃ u, runLoop fuel (beginRun s) = some u ∧ endRun u = r := by
  simp [run]

/-! ## Events of one machine -/

theorem fire_callRun : x.fire .callRun = some y ↔ x.inRun = false ∧ y = ⟨beginRun x.machine, true⟩ := by
  unfold Session.fire
  cases x.inRun <;> simp [eq_comm]

theorem fire_engineStep :
    x.fire .engineStep = some y ↔
      x.inRun = true ∧ x.machine.state = .running ∧ ∃ t, step x.machine = .next t ∧ y = ⟨t, true⟩ := by
  unfold Session.fire
  by_cases hr : x.inRun = true <;> by_cases hs : x.machine.state = .running <;> simp [hr, hs]
  cases hstep : step x.machine with
  | next t => simp [eq_comm]
  | fault r => exact r.rec
  | refused r => simp

theorem fire_returnRun :
    x.fire .returnRun = some y ↔
      x.inRun = true ∧ x.machine.state ≠ .running ∧ y = ⟨(endRun x.machine).2, false⟩ := by
  unfold Session.fire
  by_cases hr : x.inRun = true <;> by_cases hs : x.machine.state = .running <;> simp [hr, hs, eq_comm]

theorem fire_pushInput (v : Word) :
    x.fire (.pushInput v) = some y ↔ y = ⟨pushInput v x.machine, x.inRun⟩ := by
  simp [Session.fire, eq_comm]

theorem fire_reset : x.fire .reset = some y ↔ x.inRun = false ∧ y = ⟨driverReset x.machine, false⟩ := by
  unfold Session.fire
  cases x.inRun <;> simp [eq_comm]

theorem fire_peek : x.fire .peek = some y ↔ y = x := by
  simp [Session.fire, eq_comm]

@[simp] theorem fireAll_nil : Session.fireAll [] x = some y ↔ x = y := by simp [Session.fireAll]

@[simp] theorem fireAll_cons {es : List DriverEvent} :
    Session.fireAll (e :: es) x = some y ↔ ∃ z, x.fire e = some z ∧ Session.fireAll es z = some y := by
  simp [Session.fireAll, Option.bind_eq_some_iff]

/-! ## Settled machines -/

theorem Session.Settled.of_inRun (h : x.inRun = true) : x.Settled := fun h' => by simp [h] at h'

/-- A settled machine that is in no call of `run` has no output left to return. -/
theorem Session.Settled.drop_out (h : x.Settled) (hr : x.inRun = false) :
    x.machine.out.drop x.machine.outMark = [] := by
  rw [h hr, List.drop_length]

/-- Nor does the end of a `run` change it. -/
theorem Session.Settled.endRun_eq (h : x.Settled) (hr : x.inRun = false) : (endRun x.machine).2 = x.machine := by
  simp [endRun, ← h hr]

/-! ## Pipelines -/

theorem fireAt_eq_some :
    p.fireAt m e = some q ↔ ∃ x y, p.machines[m]? = some x ∧ x.fire e = some y ∧
      q = { machines := p.machines.set m y, wires := p.wires.map (Wire.collect m (x.returned e)) } := by
  unfold Pipeline.fireAt
  cases hx : p.machines[m]? with
  | none => simp
  | some x => cases hy : x.fire e <;> simp [hy, eq_comm]

theorem deliver_eq_some :
    p.deliver k = some q ↔ ∃ w v rest x, p.wires[k]? = some w ∧ w.pending = v :: rest ∧
      p.machines[w.dst]? = some x ∧
      q =
        { machines := p.machines.set w.dst ⟨pushInput v x.machine, x.inRun⟩
          wires := p.wires.set k { w with pending := rest } } := by
  unfold Pipeline.deliver
  cases hw : p.wires[k]? with
  | none => simp
  | some w =>
    cases hp : w.pending with
    | nil => simp [hp]
    | cons v rest => cases hx : p.machines[w.dst]? <;> simp [hp, hx, eq_comm]

/-- Replacing one machine by one that is sound and settled keeps the pipeline so. -/
theorem Pipeline.Inv.set {wires : List Wire} (h : p.Inv) (hy : y.machine.Inv ∧ y.Settled) :
    Pipeline.Inv ⟨p.machines.set m y, wires⟩ := by
  intro z hz
  rcases List.mem_or_eq_of_mem_set hz with hz | rfl
  · exact h z hz
  · exact hy

end Sys2Proof.Machine
end

