-- ==== Sys2Proof/Laws/Memory.lean ====
section
/-! SUPPORT. What the memory operations do, and that each keeps the canonical form. -/

namespace Sys2Proof.Machine.Memory

@[simp] theorem read_nil (a : Addr) : read [] a = Config.unsetWord := rfl

theorem read_erase (m : Memory) (a b : Addr) :
    (m.erase a).read b = if b = a then Config.unsetWord else m.read b := by
  induction m with
  | nil => simp [erase]
  | cons c m ih =>
    obtain ⟨k, v⟩ := c
    rw [erase, List.filter_cons]
    split
    · rename_i h
      have ih' : read (m.filter (fun c => decide (c.1 ≠ a))) b = _ := ih
      simp only [read, ih']
      by_cases hb : b = k
      · subst hb
        have hne : ¬b = a := by simpa using h
        simp [hne]
      · simp [hb]
    · rename_i h
      have hk : k = a := by simpa using h
      have ih' : read (m.filter (fun c => decide (c.1 ≠ a))) b = _ := ih
      subst hk
      rw [ih', read]
      split <;> simp_all

theorem read_insert (m : Memory) (a b : Addr) (v : Word) :
    (m.insert a v).read b = if b = a then v else m.read b := by
  induction m with
  | nil => simp [insert, read]
  | cons c m ih =>
    obtain ⟨k, u⟩ := c
    unfold insert
    split
    · simp [read]
    · split
      · rename_i h; subst h
        simp only [read]; split <;> simp_all
      · rename_i h
        simp only [read, ih]
        by_cases hb : b = k
        · subst hb; simp [Ne.symm h]
        · simp [hb]

/-- A write changes exactly one address, in every list, canonical or not. -/
@[simp] theorem read_write (m : Memory) (a b : Addr) (v : Word) :
    (m.write a v).read b = if b = a then v else m.read b := by
  unfold write
  split
  · rename_i h; rw [read_erase, h]
  · exact read_insert m a b v

theorem wf_nil : wf [] = true := rfl

theorem wf_cons (c : Addr × Word) (m : Memory) :
    wf (c :: m) = true ↔ (∀ d ∈ m, c.1 < d.1) ∧ c.2 ≠ Config.unsetWord ∧ wf m = true := by
  simp only [wf, List.pairwise_cons, List.all_cons, Bool.and_eq_true, decide_eq_true_eq]
  tauto

theorem wf_erase {m : Memory} (a : Addr) (h : wf m = true) : wf (m.erase a) = true := by
  simp only [wf, erase, Bool.and_eq_true, decide_eq_true_eq] at h ⊢
  refine ⟨decide_eq_true (h.1.filter _), ?_⟩
  rw [List.all_eq_true] at h ⊢
  exact fun c hc => h.2 c (List.mem_of_mem_filter hc)

theorem fst_mem_insert {m : Memory} {a : Addr} {v : Word} {d : Addr × Word} (h : d ∈ m.insert a v) :
    d = (a, v) ∨ d ∈ m := by
  induction m with
  | nil => simpa [insert] using h
  | cons c m ih =>
    obtain ⟨k, u⟩ := c
    unfold insert at h
    split at h
    · simpa using h
    · split at h
      · rcases List.mem_cons.1 h with h | h
        · exact .inl h
        · exact .inr (List.mem_cons_of_mem _ h)
      · rcases List.mem_cons.1 h with h | h
        · exact .inr (h ▸ List.mem_cons_self)
        · exact (ih h).imp id (List.mem_cons_of_mem _)

theorem wf_insert {m : Memory} {a : Addr} {v : Word} (hv : v ≠ Config.unsetWord) (h : wf m = true) :
    wf (m.insert a v) = true := by
  induction m with
  | nil => simp [insert, wf, hv]
  | cons c m ih =>
    obtain ⟨k, u⟩ := c
    obtain ⟨h1, h2, h3⟩ := (wf_cons _ _).1 h
    unfold insert
    split
    · rename_i hak
      refine (wf_cons _ _).2 ⟨fun d hd => ?_, hv, h⟩
      rcases List.mem_cons.1 hd with rfl | hd
      · exact hak
      · exact lt_trans hak (h1 d hd)
    · split
      · rename_i hak; subst hak
        exact (wf_cons _ _).2 ⟨h1, hv, h3⟩
      · rename_i hlt hne
        refine (wf_cons _ _).2 ⟨fun d hd => ?_, h2, ih h3⟩
        rcases fst_mem_insert hd with rfl | hd
        · exact lt_of_le_of_ne (not_lt.1 hlt) (Ne.symm hne)
        · exact h1 d hd

/-- A write keeps the canonical form. -/
theorem wf_write {m : Memory} (a : Addr) (v : Word) (h : wf m = true) : wf (m.write a v) = true := by
  unfold write
  split
  · exact wf_erase a h
  · rename_i hv; exact wf_insert hv h

/-- The memory of an image is canonical. -/
theorem wf_ofImage (image : List (Addr × Word)) : wf (ofImage image) = true := by
  unfold ofImage
  suffices ∀ m, wf m = true → wf (image.foldl (fun m c => write m c.1 c.2) m) = true from this [] wf_nil
  induction image with
  | nil => exact fun _ h => h
  | cons c image ih => exact fun m h => ih _ (wf_write _ _ h)

theorem readAt_ok_iff {m : Memory} {a : Int} {v : Word} :
    m.readAt a = .ok v ↔ 0 ≤ a ∧ v = m.read a.toNat := by
  unfold readAt; split
  · simp; omega
  · simp only [Except.ok.injEq]; constructor
    · rintro rfl; exact ⟨by omega, rfl⟩
    · rintro ⟨-, rfl⟩; rfl

end Sys2Proof.Machine.Memory
end

