-- ==== Sys2Proof/Laws/Operands.lean ====
section
/-! SUPPORT. What each shared operation over operands can do, said once. -/

namespace Sys2Proof.Machine

variable {s t : State} {a b dest o : Operand} {k : Nat} {x y : Word} {d : Addr} {c : FaultCause}

/-! ## finish -/

@[simp] theorem finish_ok : finish s (.ok t) = .next t := rfl

@[simp] theorem finish_error : finish s (.error c) = .next (s.raise c) := rfl

/-- A finished step always answers a next state: what was computed, or the fault taken. -/
theorem finish_next {r : Except FaultCause State} :
    finish s r = .next t ↔ r = .ok t ∨ ∃ c, r = .error c ∧ t = s.raise c := by
  cases r with
  | ok u => simp
  | error c => simp [eq_comm]

/-! ## Addresses and checks -/

theorem checkedAddress_ok_iff {m : Mode} {acc : Access} {n : Int} :
    checkedAddress k m acc n = .ok d ↔ 0 ≤ n ∧ d = n.toNat := by
  unfold checkedAddress; split
  · simp; omega
  · simp only [Except.ok.injEq]; constructor
    · rintro rfl; exact ⟨by omega, rfl⟩
    · rintro ⟨-, rfl⟩; rfl

theorem checkedAddress_error_iff {m : Mode} {acc : Access} {n : Int} :
    checkedAddress k m acc n = .error c ↔ n < 0 ∧ c = .invalidAddress k m.digit n acc := by
  unfold checkedAddress; split <;> simp_all [eq_comm]

@[simp] theorem checkDest_of_writable (h : o.mode ≠ .immediate) : checkDest k o = .ok () := by
  simp [checkDest, h]

@[simp] theorem checkDest_of_immediate (h : o.mode = .immediate) :
    checkDest k o = .error (.invalidOperand k 1 .immediateWrite) := by
  simp [checkDest, h, Mode.digit]

/-- An operand whose address was accepted is not immediate. -/
theorem writeAddr_ok_mode (h : writeAddr s k o = .ok d) : o.mode ≠ .immediate := by
  intro hm; simp [writeAddr, operandAddress, hm] at h

theorem checkDest_of_writeAddr (h : writeAddr s k o = .ok d) : checkDest k o = .ok () :=
  checkDest_of_writable (writeAddr_ok_mode h)

/-! ## resolve -/

theorem resolveRR_ok_iff :
    resolveRR s a b = .ok (x, y) ↔ readValue s 1 a = .ok x ∧ readValue s 2 b = .ok y := by
  unfold resolveRR
  cases h1 : readValue s 1 a <;> cases h2 : readValue s 2 b <;> simp [bind, Except.bind, pure, Except.pure]

theorem resolveRRW_ok_iff :
    resolveRRW s a b dest = .ok (x, y, d) ↔
      readValue s 1 a = .ok x ∧ readValue s 2 b = .ok y ∧ writeAddr s 3 dest = .ok d := by
  unfold resolveRRW
  by_cases hm : dest.mode = .immediate
  · simp only [checkDest_of_immediate hm, bind, Except.bind, reduceCtorEq, false_iff]
    rintro ⟨-, -, h⟩
    exact writeAddr_ok_mode h hm
  · rw [checkDest_of_writable hm]
    cases h1 : readValue s 1 a <;> cases h2 : readValue s 2 b <;> cases h3 : writeAddr s 3 dest <;>
      simp [bind, Except.bind, pure, Except.pure]

theorem resolveW_ok_iff : resolveW s dest = .ok d ↔ writeAddr s 1 dest = .ok d := by
  unfold resolveW
  by_cases hm : dest.mode = .immediate
  · simp only [checkDest_of_immediate hm, bind, Except.bind, reduceCtorEq, false_iff]
    exact fun h => writeAddr_ok_mode h hm
  · simp [checkDest_of_writable hm, bind, Except.bind]

theorem jumpTo_ok_iff : jumpTo s b y = .ok t ↔ 0 ≤ y ∧ t = s.setIp y.toNat := by
  unfold jumpTo
  by_cases hy : y < 0
  · simp [checkedAddress, hy, bind, Except.bind, not_le.2 hy]
  · simp [checkedAddress, hy, bind, Except.bind, pure, Except.pure, not_lt.1 hy, eq_comm]

theorem jumpTo_error_iff :
    jumpTo s b y = .error c ↔ y < 0 ∧ c = .invalidAddress 2 b.mode.digit y .jump := by
  unfold jumpTo checkedAddress
  split <;> simp_all [bind, Except.bind, pure, Except.pure, eq_comm]

/-! ## The shared execute phases -/

/-- The format `RRW` stores one word and advances, or takes a fault. -/
theorem execRRW_next {f : Word → Word → Word} (h : execRRW f a b dest s = .next t) :
    (∃ x y d, readValue s 1 a = .ok x ∧ readValue s 2 b = .ok y ∧ writeAddr s 3 dest = .ok d ∧
      t = (s.store d (f x y)).advance 4) ∨
    ∃ c, resolveRRW s a b dest = .error c ∧ t = s.raise c := by
  unfold execRRW at h
  cases hr : resolveRRW s a b dest with
  | error c => exact .inr ⟨c, rfl, by simpa [hr, bind, Except.bind, eq_comm] using h⟩
  | ok v =>
    obtain ⟨x, y, d⟩ := v
    obtain ⟨h1, h2, h3⟩ := resolveRRW_ok_iff.1 hr
    exact .inl ⟨x, y, d, h1, h2, h3, by simpa [hr, bind, Except.bind, pure, Except.pure, eq_comm] using h⟩

/-- A jump sets `ip` and nothing else, or takes a fault. -/
theorem execJump_next {taken : Word → Bool} (h : execJump taken a b s = .next t) :
    (∃ x y, readValue s 1 a = .ok x ∧ readValue s 2 b = .ok y ∧
      ((taken x = true ∧ 0 ≤ y ∧ t = s.setIp y.toNat) ∨
       (taken x = true ∧ y < 0 ∧ t = s.raise (.invalidAddress 2 b.mode.digit y .jump)) ∨
       (taken x = false ∧ t = s.advance 3))) ∨
    ∃ c, resolveRR s a b = .error c ∧ t = s.raise c := by
  unfold execJump at h
  cases hr : resolveRR s a b with
  | error c => exact .inr ⟨c, rfl, by simpa [hr, bind, Except.bind, eq_comm] using h⟩
  | ok v =>
    obtain ⟨x, y⟩ := v
    obtain ⟨h1, h2⟩ := resolveRR_ok_iff.1 hr
    refine .inl ⟨x, y, h1, h2, ?_⟩
    simp only [hr, bind, Except.bind, pure, Except.pure] at h
    cases ht : taken x with
    | false => simpa [ht, eq_comm] using h
    | true =>
      simp only [ht, if_true] at h
      rcases finish_next.1 h with hj | ⟨c, hj, rfl⟩
      · simp [jumpTo_ok_iff.1 hj]
      · obtain ⟨hy, rfl⟩ := jumpTo_error_iff.1 hj
        simp [hy]

end Sys2Proof.Machine
end

