-- ==== Sys2Proof/Laws/Exec.lean ====
section
/-! SUPPORT. Everything the meanings and `step` can do, said once: each answers a next state, and that state is one of the
cases listed. -/

namespace Sys2Proof.Machine

variable {s t : State} {a dest : Operand}

/-- R140, R141: input takes one element and stores it, suspends, or takes a fault. -/
theorem execInput_next (h : execInput dest s = .next t) :
    (∃ d x rest, writeAddr s 1 dest = .ok d ∧ s.inq = x :: rest ∧
      t = ((s.setInq rest).store d x).advance 2) ∨
    (∃ d, writeAddr s 1 dest = .ok d ∧ s.inq = [] ∧ t = s.suspend) ∨
    ∃ c, resolveW s dest = .error c ∧ t = s.raise c := by
  unfold execInput at h
  cases hr : resolveW s dest with
  | error c => exact .inr (.inr ⟨c, rfl, by simpa [hr, bind, Except.bind, eq_comm] using h⟩)
  | ok d =>
    have hd := resolveW_ok_iff.1 hr
    simp only [hr, bind, Except.bind, pure, Except.pure] at h
    cases hq : s.inq with
    | nil => exact .inr (.inl ⟨d, hd, rfl, by simpa [hq, eq_comm] using h⟩)
    | cons x rest => exact .inl ⟨d, x, rest, hd, rfl, by simpa [hq, eq_comm] using h⟩

/-- R142. -/
theorem execOutput_next (h : execOutput a s = .next t) :
    (∃ x, readValue s 1 a = .ok x ∧ t = (s.emit x).advance 2) ∨
    ∃ c, readValue s 1 a = .error c ∧ t = s.raise c := by
  unfold execOutput at h
  cases hr : readValue s 1 a with
  | error c => exact .inr ⟨c, rfl, by simpa [hr, bind, Except.bind, eq_comm] using h⟩
  | ok x => exact .inl ⟨x, rfl, by simpa [hr, bind, Except.bind, pure, Except.pure, eq_comm] using h⟩

/-- R170. -/
theorem execAdjustRelativeBase_next (h : execAdjustRelativeBase a s = .next t) :
    (∃ x, readValue s 1 a = .ok x ∧ t = (s.adjustBase x).advance 2) ∨
    ∃ c, readValue s 1 a = .error c ∧ t = s.raise c := by
  unfold execAdjustRelativeBase at h
  cases hr : readValue s 1 a with
  | error c => exact .inr ⟨c, rfl, by simpa [hr, bind, Except.bind, eq_comm] using h⟩
  | ok x => exact .inl ⟨x, rfl, by simpa [hr, bind, Except.bind, pure, Except.pure, eq_comm] using h⟩

/-- R180. -/
theorem execHalt_next (h : execHalt s = .next t) : t = s.stop := by
  simpa [execHalt, eq_comm] using h

/-- Outside `running` a step changes nothing. -/
theorem step_of_not_running (h : s.state ≠ .running) : step s = .next s := by
  unfold step idle
  cases hs : s.state <;> simp_all

/-- A running machine decodes what it fetched. -/
theorem step_of_running (h : s.state = .running) :
    step s = match decode s.fetchWords with
      | .ok i => exec i s
      | .error e => .next (s.raise (decodeCause e)) := by
  unfold step
  rw [h] <;> rfl

end Sys2Proof.Machine
end

