-- ==== Sys2Proof/Laws/Effect.lean ====
section
/-! SUPPORT. Everything an executed instruction can do to a state, said once, for case analysis: the inversion of `exec`
and of `step`. -/

namespace Sys2Proof.Machine

variable {s t : State}

/-- The ways `exec i s = .next t` can come about, each with what it needed and the state it leaves. -/
inductive Effect (s t : State) : Instr → Prop where
  /-- A fault was found in resolving an operand or a jump's target. -/
  | raised (i : Instr) (c : FaultCause) (ht : t = s.raise c) : Effect s t i
  /-- add, multiply, less-than, equals store one word. -/
  | stored (i : Instr) (a b dest : Operand) (x y v : Word) (d : Addr)
      (hi : i = .add a b dest ∨ i = .mul a b dest ∨ i = .lessThan a b dest ∨ i = .equals a b dest)
      (ha : readValue s 1 a = .ok x) (hb : readValue s 2 b = .ok y) (hd : writeAddr s 3 dest = .ok d)
      (ht : t = (s.store d v).advance 4) : Effect s t i
  /-- input takes the oldest element. -/
  | took (dest : Operand) (d : Addr) (x : Word) (rest : List Word) (hd : writeAddr s 1 dest = .ok d)
      (hq : s.inq = x :: rest) (ht : t = ((s.setInq rest).store d x).advance 2) : Effect s t (.input dest)
  /-- input finds the queue empty. -/
  | suspended (dest : Operand) (d : Addr) (hd : writeAddr s 1 dest = .ok d) (hq : s.inq = [])
      (ht : t = s.suspend) : Effect s t (.input dest)
  /-- output appends. -/
  | emitted (a : Operand) (x : Word) (ha : readValue s 1 a = .ok x) (ht : t = (s.emit x).advance 2) :
      Effect s t (.output a)
  /-- adjust-relative-base adds. -/
  | adjusted (a : Operand) (x : Word) (ha : readValue s 1 a = .ok x) (ht : t = (s.adjustBase x).advance 2) :
      Effect s t (.adjustRelativeBase a)
  /-- halt stops. -/
  | halted (ht : t = s.stop) : Effect s t .halt
  /-- A jump is taken. -/
  | jumped (i : Instr) (a b : Operand) (x y : Word)
      (hi : i = .jumpIfTrue a b ∧ x ≠ 0 ∨ i = .jumpIfFalse a b ∧ x = 0)
      (ha : readValue s 1 a = .ok x) (hb : readValue s 2 b = .ok y) (hy : 0 ≤ y)
      (ht : t = s.setIp y.toNat) : Effect s t i
  /-- A jump is not taken. -/
  | passed (i : Instr) (a b : Operand) (x y : Word)
      (hi : i = .jumpIfTrue a b ∧ x = 0 ∨ i = .jumpIfFalse a b ∧ x ≠ 0)
      (ha : readValue s 1 a = .ok x) (hb : readValue s 2 b = .ok y) (ht : t = s.advance 3) : Effect s t i

theorem Effect.ofRRW {f : Word → Word → Word} {i : Instr} {a b dest : Operand}
    (hi : i = .add a b dest ∨ i = .mul a b dest ∨ i = .lessThan a b dest ∨ i = .equals a b dest)
    (h : execRRW f a b dest s = .next t) : Effect s t i := by
  rcases execRRW_next h with ⟨x, y, d, ha, hb, hd, ht⟩ | ⟨c, -, ht⟩
  · exact .stored i a b dest x y _ d hi ha hb hd ht
  · exact .raised i c ht

theorem isNonZero_eq_true {x : Word} : isNonZero x = true ↔ x ≠ 0 := by simp [isNonZero]

theorem isNonZero_eq_false {x : Word} : isNonZero x = false ↔ x = 0 := by simp [isNonZero]

theorem exec_effect {i : Instr} (h : exec i s = .next t) : Effect s t i := by
  cases i with
  | add a b dest => exact .ofRRW (.inl rfl) h
  | mul a b dest => exact .ofRRW (.inr (.inl rfl)) h
  | lessThan a b dest =>
    simp only [exec, execLessThan] at h
    exact .ofRRW (.inr (.inr (.inl rfl))) h
  | equals a b dest =>
    simp only [exec, execEquals] at h
    exact .ofRRW (.inr (.inr (.inr rfl))) h
  | input dest =>
    rcases execInput_next h with ⟨d, x, rest, hd, hq, ht⟩ | ⟨d, hd, hq, ht⟩ | ⟨c, -, ht⟩
    · exact .took dest d x rest hd hq ht
    · exact .suspended dest d hd hq ht
    · exact .raised _ c ht
  | output a =>
    rcases execOutput_next h with ⟨x, ha, ht⟩ | ⟨c, -, ht⟩
    · exact .emitted a x ha ht
    · exact .raised _ c ht
  | adjustRelativeBase a =>
    rcases execAdjustRelativeBase_next h with ⟨x, ha, ht⟩ | ⟨c, -, ht⟩
    · exact .adjusted a x ha ht
    · exact .raised _ c ht
  | halt => exact .halted (execHalt_next h)
  | jumpIfTrue a b =>
    rcases execJump_next h with ⟨x, y, ha, hb, ⟨hx, hy, ht⟩ | ⟨-, -, ht⟩ | ⟨hx, ht⟩⟩ | ⟨c, -, ht⟩
    · exact .jumped _ a b x y (.inl ⟨rfl, isNonZero_eq_true.1 hx⟩) ha hb hy ht
    · exact .raised _ _ ht
    · exact .passed _ a b x y (.inl ⟨rfl, isNonZero_eq_false.1 hx⟩) ha hb ht
    · exact .raised _ c ht
  | jumpIfFalse a b =>
    simp only [exec, execJumpIfFalse] at h
    rcases execJump_next h with ⟨x, y, ha, hb, ⟨hx, hy, ht⟩ | ⟨-, -, ht⟩ | ⟨hx, ht⟩⟩ | ⟨c, -, ht⟩
    · exact .jumped _ a b x y (.inr ⟨rfl, isNonZero_eq_false.1 (by simpa using hx)⟩) ha hb hy ht
    · exact .raised _ _ ht
    · exact .passed _ a b x y (.inr ⟨rfl, isNonZero_eq_true.1 (by simpa using hx)⟩) ha hb ht
    · exact .raised _ c ht

/-- What a step of a running machine can do: an instruction's effect, or the fault of the decode phase. -/
theorem step_effect (hs : s.state = .running) (h : step s = .next t) :
    (∃ i, decode s.fetchWords = .ok i ∧ Effect s t i) ∨
    ∃ e, decode s.fetchWords = .error e ∧ t = s.raise (decodeCause e) := by
  rw [step_of_running hs] at h
  cases hd : decode s.fetchWords with
  | ok i => rw [hd] at h; exact .inl ⟨i, rfl, exec_effect h⟩
  | error e => rw [hd] at h; exact .inr ⟨e, rfl, by simpa [eq_comm] using h⟩

end Sys2Proof.Machine
end

