-- ==== Sys2Proof/Laws/PerInstr.lean ====
section
/-! SUPPORT. Facts about every instruction as syntax, one lemma per constructor. -/

namespace Sys2Proof.Laws.EncodedFields

/-- The first word of an encoded instruction is not negative, its decimal fields are the instruction's operation code and
modes (R71, R72), its parameter words follow in order (R75), and it has as many words as the instruction's width (R76). -/
def Statement (i : Instr) : Prop :=
  ∃ w : Nat, encode i = (w : Int) :: i.operands.map Operand.word ∧ opcode w = i.opcode ∧
    (∀ k o, i.operands[k]? = some o → mode w (k + 1) = o.mode.digit) ∧ (encode i).length = i.width

theorem digit_le (m : Mode) : m.digit ≤ 2 := by cases m <;> decide

theorem fields_of_word (op m1 m2 m3 : Nat) (ho : op < 100) (h1 : m1 ≤ 2) (h2 : m2 ≤ 2) (h3 : m3 ≤ 2) :
    opcode (op + 100 * m1 + 1000 * m2 + 10000 * m3) = op ∧
    mode (op + 100 * m1 + 1000 * m2 + 10000 * m3) 1 = m1 ∧
    mode (op + 100 * m1 + 1000 * m2 + 10000 * m3) 2 = m2 ∧
    mode (op + 100 * m1 + 1000 * m2 + 10000 * m3) 3 = m3 := by
  simp only [opcode, mode, digit, Nat.reduceAdd, Nat.reducePow]
  omega

theorem ofTriple {i : Instr} {op : Nat} {a b dest : Operand} (he : encode i = encodeRRW op a b dest)
    (ho : i.operands = [a, b, dest]) (hc : i.opcode = op) (hw : i.width = 4) (hop : op < 100) : Statement i := by
  obtain ⟨f0, f1, f2, f3⟩ :=
    fields_of_word op _ _ _ hop (digit_le a.mode) (digit_le b.mode) (digit_le dest.mode)
  refine ⟨_, by rw [he, ho]; rfl, by rw [f0, hc], fun k o hk => ?_, by rw [he, hw]; rfl⟩
  rw [ho] at hk
  match k, hk with
  | 0, hk => cases hk; exact f1
  | 1, hk => cases hk; exact f2
  | 2, hk => cases hk; exact f3

theorem ofPair {i : Instr} {op : Nat} {a b : Operand} (he : encode i = encodeRR op a b)
    (ho : i.operands = [a, b]) (hc : i.opcode = op) (hw : i.width = 3) (hop : op < 100) : Statement i := by
  obtain ⟨f0, f1, f2, -⟩ := fields_of_word op _ _ 0 hop (digit_le a.mode) (digit_le b.mode) (by decide)
  refine ⟨_, by rw [he, ho]; rfl, by rw [f0, hc], fun k o hk => ?_, by rw [he, hw]; rfl⟩
  rw [ho] at hk
  match k, hk with
  | 0, hk => cases hk; exact f1
  | 1, hk => cases hk; exact f2

theorem ofOne {i : Instr} {op : Nat} {a : Operand} (he : encode i = encodeOne op a)
    (ho : i.operands = [a]) (hc : i.opcode = op) (hw : i.width = 2) (hop : op < 100) : Statement i := by
  obtain ⟨f0, f1, -, -⟩ := fields_of_word op _ 0 0 hop (digit_le a.mode) (by decide) (by decide)
  refine ⟨_, by rw [he, ho]; rfl, by rw [f0, hc], fun k o hk => ?_, by rw [he, hw]; rfl⟩
  rw [ho] at hk
  match k, hk with
  | 0, hk => cases hk; exact f1

theorem add (a b dest : Operand) : Statement (.add a b dest) := ofTriple rfl rfl rfl rfl (by decide)

theorem mul (a b dest : Operand) : Statement (.mul a b dest) := ofTriple rfl rfl rfl rfl (by decide)

theorem input (dest : Operand) : Statement (.input dest) := ofOne rfl rfl rfl rfl (by decide)

theorem output (a : Operand) : Statement (.output a) := ofOne rfl rfl rfl rfl (by decide)

theorem jumpIfTrue (a b : Operand) : Statement (.jumpIfTrue a b) := ofPair rfl rfl rfl rfl (by decide)

theorem jumpIfFalse (a b : Operand) : Statement (.jumpIfFalse a b) := ofPair rfl rfl rfl rfl (by decide)

theorem lessThan (a b dest : Operand) : Statement (.lessThan a b dest) := ofTriple rfl rfl rfl rfl (by decide)

theorem equals (a b dest : Operand) : Statement (.equals a b dest) := ofTriple rfl rfl rfl rfl (by decide)

theorem adjustRelativeBase (a : Operand) : Statement (.adjustRelativeBase a) := ofOne rfl rfl rfl rfl (by decide)

theorem halt : Statement .halt :=
  ⟨99, rfl, rfl, fun k o hk => by simp [Instr.operands] at hk, rfl⟩

end Sys2Proof.Laws.EncodedFields
end

