-- ==== Sys2Proof/Machine/Codes.lean ====
section
/-! DEFINITION. The numbers spec/60_exceptions.md R218 suggests for a realisation that needs numbers. No rule and no other
definition depends on them (U17; log 20). -/

namespace Sys2Proof.Machine

/-- R218: the suggested number of an engine state. -/
def EngineState.code : EngineState → Nat
  | .running => 0
  | .awaitingInput => 1
  | .halted => 2
  | .faulted => 3

/-- R218: the suggested number of a fault kind; 0 means no fault. -/
def faultCode : Option FaultKind → Nat
  | none => 0
  | some .invalidOpcode => 1
  | some .invalidOperand => 2
  | some .invalidAddress => 3

/-- R218: the suggested number of an InvalidOperand reason. -/
def reasonCode : OperandReason → Nat
  | .immediateWrite => 0
  | .unknownMode => 1

/-- R218: the suggested number of an access kind. -/
def Access.code : Access → Nat
  | .read => 0
  | .write => 1
  | .jump => 2

end Sys2Proof.Machine
end

