-- ==== Sys2Proof/Tests/Slice0.lean ====
section
/-! SUPPORT. Tests. Expected results are those of spec/95_test_vectors.md, whose row is named at each test, or are worked
from a rule by hand. `witness_…` shows that the hypotheses of the obligation of that name can be met. -/

namespace Sys2Proof.Tests

open Sys2Proof.Machine

/-! ## Helpers -/

/-- The machine constructed from a list of words. -/
def machine (image : List Word) : State := (newMachine (imageOfList image) none).getD State.reset

/-- The state after one step, if the step answers one. -/
def after (s : State) : Option State :=
  match step s with
  | .next t => some t
  | .fault _ => none
  | .refused _ => none

/-- The state an instruction's meaning answers. -/
def execAfter (i : Instr) (s : State) : Option State :=
  match exec i s with
  | .next t => some t
  | .fault _ => none
  | .refused _ => none

/-- One word of memory, the instruction pointer and the engine's state after one step. -/
def seen (a : Addr) (s : State) : Option (Word × Addr × EngineState) :=
  (after s).map (fun t => (t.mem.read a, t.ip, t.state))

/-- The fault record after one step. -/
def record (s : State) : Option FaultRecord := (after s).bind State.fault

def pos (w : Word) : Operand := ⟨.position, w⟩
def imm (w : Word) : Operand := ⟨.immediate, w⟩
def rel (w : Word) : Operand := ⟨.relative, w⟩

/-! ## WellFormed refuses each ill-formed term -/

theorem test_wellFormed_add : (Instr.add (pos 1) (imm 2) (imm 3)).wellFormed = false := by decide
theorem test_wellFormed_mul : (Instr.mul (pos 1) (rel 2) (imm 3)).wellFormed = false := by decide
theorem test_wellFormed_input : (Instr.input (imm 3)).wellFormed = false := by decide
theorem test_wellFormed_lessThan : (Instr.lessThan (imm 1) (imm 2) (imm 3)).wellFormed = false := by decide
theorem test_wellFormed_equals : (Instr.equals (rel 1) (pos 2) (imm 3)).wellFormed = false := by decide
theorem test_wellFormed_legal : (Instr.add (imm 1) (imm 2) (rel (-3))).wellFormed = true := by decide

/-! ## Words written out from the spec's encodings (30_encoding.md R76, R86, R87) -/

/-- R87: `add [9], #5, [rb-1]` is 21001, 9, 5, -1. -/
theorem test_decode_add : decode [21001, 9, 5, -1] = .ok (.add (pos 9) (imm 5) (rel (-1))) := by decide
/-- R131's example and V0: 1002 is multiply: position, immediate, position. -/
theorem test_decode_mul : decode [1002, 4, 3, 4] = .ok (.mul (pos 4) (imm 3) (pos 4)) := by decide
/-- V0: 203 is input, relative. -/
theorem test_decode_input : decode [203, -3] = .ok (.input (rel (-3))) := by decide
/-- V0: 104 is output, immediate. -/
theorem test_decode_output : decode [104, -5] = .ok (.output (imm (-5))) := by decide
/-- V0: 2105 is jump-if-true: a immediate, b relative. -/
theorem test_decode_jumpIfTrue : decode [2105, 1, 1] = .ok (.jumpIfTrue (imm 1) (rel 1)) := by decide
/-- R151's example: 1006, 101, 0. -/
theorem test_decode_jumpIfFalse : decode [1006, 101, 0] = .ok (.jumpIfFalse (pos 101) (imm 0)) := by decide
/-- V0 and program P2: 22207 is less-than, all relative. -/
theorem test_decode_lessThan : decode [22207, 0, 1, 2] = .ok (.lessThan (rel 0) (rel 1) (rel 2)) := by decide
/-- S5: 1008, 100, 16, 101 is `equals [100], #16, [101]`. -/
theorem test_decode_equals : decode [1008, 100, 16, 101] = .ok (.equals (pos 100) (imm 16) (pos 101)) := by decide
/-- V0: 109 is adjust-relative-base, immediate. -/
theorem test_decode_adjustRelativeBase : decode [109, 19] = .ok (.adjustRelativeBase (imm 19)) := by decide
/-- V0: 99 is halt, and 12399 with its digits ignored. -/
theorem test_decode_halt : decode [99] = .ok .halt ∧ decode [12399] = .ok .halt := by decide
/-- V0: a thirteen-digit word decodes like any other. -/
theorem test_decode_longWord : decode [1000000000001, 5, 6, 7] = .ok (.add (pos 5) (pos 6) (pos 7)) := by decide
/-- vF4, vF5, vF6, vF7, vF21, vF22. -/
theorem test_decode_illegal :
    decode [10] = .error .invalidOpcode ∧ decode [98] = .error .invalidOpcode ∧
    decode [-1] = .error .invalidOpcode ∧ decode [-99] = .error .invalidOpcode ∧
    decode [33001, -1, 0, 0] = .error (.invalidOperand 2 3 .unknownMode) ∧
    decode [13001, 0, 0, 0] = .error (.invalidOperand 2 3 .unknownMode) := by decide
/-- S1, V0: the decoder block's own output. -/
theorem test_decodeWord :
    decodeWord 1002 = (2, [0, 1]) ∧ decodeWord 99 = (99, []) ∧ decodeWord 21101 = (1, [1, 1, 2]) ∧
    decodeWord 1234567 = (67, [5, 4, 3, 2, 1]) ∧ decodeWord 100001 = (1, [0, 0, 0, 1]) := by decide
/-- R87 backwards: the canonical words. -/
theorem test_encode : encode (.add (pos 9) (imm 5) (rel (-1))) = [21001, 9, 5, -1] ∧ encode .halt = [99] := by decide
/-- The table's word 99 is halt; its word 1 is add with all modes 0, before parameter words of zero. -/
theorem test_tableWord : decodeTableWord 8 99 = some .halt ∧
    decodeTableWord 8 1 = some (.add (pos 0) (pos 0) (pos 0)) ∧ decodeTableWord 16 103 = none := by decide
/-- An instruction placed in the reset machine is the one its next step runs. -/
theorem test_withFetchWord :
    (after (State.reset.withFetchWord 8 99)).map State.state = some .halted ∧
    (after (State.reset.withFetchWord 8 4)).map State.out = some [4] := by decide

/-! ## One step (spec/95_test_vectors.md V1) -/

/-- vA5. -/
theorem test_add_relative :
    seen 8 { machine [22201, 1, 2, 3, 0, 0, 10, 20] with rb := 5 } = some (30, 4, .running) := by decide
/-- vA7: no wrap at 2^63. -/
theorem test_add_noWrap :
    seen 5 (machine [1101, 9223372036854775807, 1, 5]) = some (9223372036854775808, 4, .running) := by decide
/-- vM2. -/
theorem test_mul_sign : seen 5 (machine [1102, -6, 7, 5]) = some (-42, 4, .running) := by decide
/-- vM7: squares its own instruction word. -/
theorem test_mul_self : seen 0 (machine [2, 0, 0, 0]) = some (4, 4, .running) := by decide
/-- vI2 and vI9: the oldest element, relative with a negative offset. -/
theorem test_input_oldest :
    seen 7 { machine [203, -3] with rb := 10, inq := [-9] } = some (-9, 2, .running) ∧
    (after { machine [3, 50] with inq := [1, 2, 3] }).map State.inq = some [2, 3] := by decide
/-- vI4 and vI8: suspension, and a fault before it. -/
theorem test_input_empty : seen 5 (machine [3, 5]) = some (0, 0, .awaitingInput) ∧
    record (machine [3, -1]) = some ⟨0, 3, .invalidAddress 1 0 (-1) .write⟩ := by decide
/-- vO3. -/
theorem test_output_relative :
    (after { machine [204, 3, 0, 0, 0, 0, 0, 0, 88] with rb := 5 }).map State.out = some [88] := by decide
/-- vO4: an unset address reads 0. -/
theorem test_output_unset : (after (machine [4, 1000])).map (fun t => (t.out, t.ip)) = some ([0], 2) := by decide
/-- vJ3 and vJ11: a negative word is true; the target is the value of b. -/
theorem test_jumpIfTrue_taken : (after (machine [5, 4, 5, 0, -3, 9])).map State.ip = some 9 ∧
    (after { machine [2105, 1, 1, 0, 0, 0, 30] with rb := 5 }).map State.ip = some 30 := by decide
/-- vJ7, vJ8 and vJ9: a negative target, taken, not taken, and one that cannot be resolved. -/
theorem test_jumpIfTrue_negative :
    record (machine [1105, 1, -1]) = some ⟨0, 1105, .invalidAddress 2 1 (-1) .jump⟩ ∧
    seen 0 (machine [1105, 0, -1]) = some (1105, 3, .running) ∧
    record (machine [105, 0, -1]) = some ⟨0, 105, .invalidAddress 2 0 (-1) .read⟩ := by decide
/-- vJ4 and vJ5. -/
theorem test_jumpIfFalse : seen 0 (machine [1106, 0, 7]) = some (1106, 7, .running) ∧
    seen 0 (machine [1106, 5, 7]) = some (1106, 3, .running) := by decide
/-- vJ14. -/
theorem test_jumpIfFalse_negative :
    record (machine [1106, 0, -4]) = some ⟨0, 1106, .invalidAddress 2 1 (-4) .jump⟩ := by decide
/-- vL3 and vL4: strict and signed. -/
theorem test_lessThan : seen 5 (machine [1107, 4, 4, 5, 99, -1]) = some (0, 4, .running) ∧
    seen 5 (machine [1107, -1, 0, 5, 99, -1]) = some (1, 4, .running) := by decide
/-- vL6: dest is also a's address. -/
theorem test_lessThan_overlap : seen 4 (machine [7, 4, 5, 4, 2, 3]) = some (1, 4, .running) := by decide
/-- vE2: the sign matters, and 0 is written. -/
theorem test_equals : seen 5 (machine [1108, 8, -8, 5, 99, -1]) = some (0, 4, .running) := by decide
/-- vE3: compares its instruction word with itself and overwrites it. -/
theorem test_equals_self : seen 0 (machine [8, 0, 0, 0]) = some (1, 4, .running) := by decide
/-- vR1 and vR2. -/
theorem test_adjustRelativeBase :
    (after { machine [109, 19] with rb := 2000 }).map (fun t => (t.rb, t.ip)) = some (2019, 2) ∧
    (after { machine [109, -7] with rb := 3 }).map State.rb = some (-4) := by decide
/-- vR4: a relative operand uses the old base. -/
theorem test_adjustRelativeBase_old :
    (after { machine [209, 3, 0, 0, 0, 0, 0, 0, 11] with rb := 5 }).map State.rb = some 16 := by decide
/-- vH1, vH3: `ip` stays. -/
theorem test_halt : seen 0 (machine [99]) = some (99, 0, .halted) ∧
    seen 0 (machine [12399]) = some (12399, 0, .halted) := by decide
/-- vF18: an illegal mode of parameter 3 is found before the address of parameter 1. -/
theorem test_fault_order :
    record (machine [11001, -1, 0, 0]) = some ⟨0, 11001, .invalidOperand 3 1 .immediateWrite⟩ ∧
    record (machine [1, -1, -2, -3]) = some ⟨0, 1, .invalidAddress 1 0 (-1) .read⟩ := by decide

/-! ## The driver (spec/95_test_vectors.md S6, P4, vX2, vX9) -/

/-- vX2: the empty image. -/
theorem test_run_empty :
    (run 1 (machine [])).map Prod.fst = some ⟨[], .faulted, some ⟨0, 0, .invalidOpcode⟩⟩ := by decide
/-- S6: suspended, then resumed with the value 5. -/
theorem test_run_resume :
    (run 9 (machine [3, 5, 4, 5, 99, 0])).map Prod.fst = some ⟨[], .awaitingInput, none⟩ ∧
    ((run 9 (machine [3, 5, 4, 5, 99, 0])).bind (fun r => run 9 (pushInput 5 r.2))).map
      (fun r => (r.1, r.2.ip, r.2.mem.read 5)) = some (⟨[5], .halted, none⟩, 4, 5) := by decide
/-- P4: the output before a fault is returned with it; `reset` discards the record. -/
theorem test_run_fault :
    (run 9 (machine [104, 1, 104, 2, 1, -1, 0, 0, 99])).map (fun r => (r.1, driverReset r.2)) =
      some (⟨[1, 2], .faulted, some ⟨4, 1, .invalidAddress 1 0 (-1) .read⟩⟩,
        machine [104, 1, 104, 2, 1, -1, 0, 0, 99]) := by decide
/-- vX7: before any `run`. -/
theorem test_peek : peekState (machine [99]) = .running := by decide
/-- R250: a negative address makes no machine. -/
theorem test_newMachine_refused : newMachine [(-1, 7)] none = none := by decide
/-- R218. -/
theorem test_codes : EngineState.faulted.code = 3 ∧ faultCode none = 0 ∧
    faultCode (some .invalidAddress) = 3 ∧ reasonCode .unknownMode = 1 ∧ Access.jump.code = 2 := by decide

/-! ## Witnesses: encoding and faults -/

theorem witness_DecodeEncodeRoundTrip : (Instr.lessThan (rel (-1)) (imm 0) (pos 7)).wellFormed = true := by decide
theorem witness_DecodedInstructionsAreWellFormed : decode [20107, 0, 7, -1] =
    .ok (.lessThan (imm 0) (pos 7) (rel (-1))) := by decide
/-- With surplus digits, so that the restored word differs. -/
theorem witness_ReencodingLosesOnlySurplusDigits : decode [7000104, -5] = .ok (.output (imm (-5))) := by decide
/-- The largest word with an empty list, and a list with a position inside it and one beyond. -/
theorem witness_DecoderBlockListsTheModeDigits : 99 < 100 ∧ (decodeWord 99).2.length < 1 ∧ 1 ≤ 2 ∧
    (decodeWord 1002).2.length < 3 := by decide
theorem witness_SurplusDigitsAreIgnored :
    Pseudocode.paramKinds (opcode 1) = some [.R, .R, .W] ∧ opcode 100001 = opcode 1 ∧
    ∀ k, k < 3 → mode 100001 (k + 1) = mode 1 (k + 1) := by decide
/-- Each disjunct at its boundary: -1, and the codes 0, 10 and 98. -/
theorem witness_IllegalOpcodesFault :
    (machine [-1]).state = .running ∧ (machine [-1]).mem.read (machine [-1]).ip < 0 ∧
    ∀ w ∈ ([5000, 10, 98] : List Word), (machine [w]).state = .running ∧
      (machine [w]).mem.read (machine [w]).ip % 100 ∉ ([1, 2, 3, 4, 5, 6, 7, 8, 9, 99] : List Int) := by decide
theorem witness_IllegalOpcodesFault_converse :
    (machine [0]).fault = none ∧ (record (machine [0])).map FaultRecord.cause = some .invalidOpcode := by decide
/-- The digits 3 and 9, after legal earlier parameters. -/
theorem witness_IllegalModesFault_unknown :
    (machine [90002]).state = .running ∧ 0 ≤ (machine [90002]).mem.read 0 ∧
    Pseudocode.paramKinds (opcode 90002) = some [.R, .R, .W] ∧ mode 90002 1 < 3 ∧ mode 90002 2 < 3 ∧
    3 ≤ mode 90002 3 ∧ Pseudocode.paramKinds (opcode 304) = some [.R] ∧ 3 ≤ mode 304 1 := by decide
theorem witness_IllegalModesFault_immediate :
    (machine [103]).state = .running ∧ 0 ≤ (machine [103]).mem.read 0 ∧
    Pseudocode.paramKinds (opcode 103) = some [.W] ∧ mode 103 1 = 1 := by decide
/-- Each fault of a three-operand instruction, the address -1 being the boundary. -/
theorem witness_ThreeOperandFaultsComeInOrder :
    (imm 0).mode = .immediate ∧ (pos (-1)).mode ≠ .immediate ∧
    readValue State.reset 1 (pos (-1)) = .error (.invalidAddress 1 0 (-1) .read) ∧
    readValue State.reset 1 (pos 0) = .ok 0 ∧
    readValue State.reset 2 (rel (-1)) = .error (.invalidAddress 2 2 (-1) .read) ∧
    readValue State.reset 2 (imm (-1)) = .ok (-1) ∧
    writeAddr State.reset 3 (pos (-1)) = .error (.invalidAddress 3 0 (-1) .write) := by decide
/-- Both jumps, each with its condition met and not met, and the target -1. -/
theorem witness_JumpFaultsComeInOrder :
    (Instr.jumpIfTrue (imm 1) (imm (-1)) = .jumpIfTrue (imm 1) (imm (-1)) ∧ ∀ x : Word, x ≠ 0 ↔ x ≠ 0) ∧
    (Instr.jumpIfFalse (pos 9) (imm (-1)) = .jumpIfFalse (pos 9) (imm (-1)) ∧ ∀ x : Word, x = 0 ↔ x = 0) ∧
    readValue State.reset 1 (rel (-1)) = .error (.invalidAddress 1 2 (-1) .read) ∧
    readValue State.reset 1 (imm 1) = .ok 1 ∧ (1 : Word) ≠ 0 ∧ readValue State.reset 1 (pos 9) = .ok 0 ∧
    readValue State.reset 2 (pos (-1)) = .error (.invalidAddress 2 0 (-1) .read) ∧
    readValue State.reset 2 (imm (-1)) = .ok (-1) ∧ (-1 : Word) < 0 := by
  exact ⟨⟨rfl, fun _ => Iff.rfl⟩, ⟨rfl, fun _ => Iff.rfl⟩, by decide⟩
theorem witness_OneOperandFaultsComeFirst :
    (imm 5).mode = .immediate ∧ (rel (-1)).mode ≠ .immediate ∧
    writeAddr State.reset 1 (rel (-1)) = .error (.invalidAddress 1 2 (-1) .write) ∧
    readValue State.reset 1 (rel (-1)) = .error (.invalidAddress 1 2 (-1) .read) := by decide
theorem witness_FaultsArePrecise :
    (machine [1, 0, 0, -3]).state = .running ∧
    (after (machine [1, 0, 0, -3])).map State.state = some .faulted := by decide

/-! ## Witnesses: memory and operands -/

theorem witness_ReadReturnsTheLatestWrite : (1 : Addr) ≠ 0 := by decide
theorem witness_MemoryStoreContract : (-1 : Int) < 0 ∧ (0 : Int) ≤ 0 := by decide
theorem witness_MemoriesThatReadAlikeAreEqual :
    Memory.wf [(0, 99), (7, -1)] = true ∧ Memory.wf [] = true := by decide
/-- Both sides of each boundary, for the parameter word and for the sum with a negative base. -/
theorem witness_ReadOperandResolvesByMode : (-1 : Word) < 0 ∧ (0 : Word) ≤ 0 ∧
    ({ State.reset with rb := -5 }).rb + 4 < 0 ∧ 0 ≤ ({ State.reset with rb := -5 }).rb + 5 := by decide
theorem witness_WriteOperandResolvesByMode : (-1 : Word) < 0 ∧ (0 : Word) ≤ 0 ∧
    ({ State.reset with rb := 2 }).rb + -3 < 0 ∧ 0 ≤ ({ State.reset with rb := 2 }).rb + -2 := by decide

/-! ## Witnesses: each instruction -/

theorem witness_AddAndMultiplyStoreTheResult :
    readValue (machine [1001, 0, 5, 0]) 1 (pos 0) = .ok 1001 ∧
    readValue (machine [1001, 0, 5, 0]) 2 (imm 5) = .ok 5 ∧
    writeAddr (machine [1001, 0, 5, 0]) 3 (pos 0) = .ok 0 := by decide
theorem witness_ComparesStoreOneOrZero :
    readValue (machine [20107, 3, 0, 0]) 1 (imm 3) = .ok 3 ∧
    readValue (machine [20107, 3, 0, 0]) 2 (pos 100) = .ok 0 ∧
    writeAddr (machine [20107, 3, 0, 0]) 3 (rel 0) = .ok 0 := by decide
theorem witness_InputTakesTheOldestElement :
    writeAddr { machine [3, 50] with inq := [1, 2] } 1 (pos 50) = .ok 50 ∧
    ({ machine [3, 50] with inq := [1, 2] }).inq = [1, 2] := by decide
theorem witness_InputSuspendsOnAnEmptyQueue :
    writeAddr (machine [203, 0]) 1 (rel 0) = .ok 0 ∧ (machine [203, 0]).inq = [] := by decide
theorem witness_OutputAppendsTheValue : readValue (machine [4, 2, -77]) 1 (pos 2) = .ok (-77) := by decide
/-- Both conditions, with the target 0. -/
theorem witness_JumpsSetTheInstructionPointer :
    readValue State.reset 1 (imm (-1)) = .ok (-1) ∧ (-1 : Word) ≠ 0 ∧
    readValue State.reset 1 (pos 9) = .ok 0 ∧ readValue State.reset 2 (pos 10) = .ok 0 ∧ (0 : Word) ≤ 0 := by decide
theorem witness_AdjustRelativeBaseAddsToTheBase :
    readValue { machine [209, 3, 0, 0, 0, 0, 0, 0, 11] with rb := 5 } 1 (rel 3) = .ok 11 := by decide
theorem witness_HaltChangesTheStateAlone : (machine [30099]).state = .running ∧
    0 ≤ (machine [30099]).mem.read 0 ∧ (machine [30099]).mem.read 0 % 100 = 99 := by decide
/-- P3: the word stored falls on the very next word fetched; and an input whose destination is the last of the four. -/
theorem witness_StoresAreSeenByTheNextFetch :
    (readValue (machine [1101, 104, 0, 4, 0, 77, 99]) 1 (imm 104) = .ok 104 ∧
      readValue (machine [1101, 104, 0, 4, 0, 77, 99]) 2 (imm 0) = .ok 0 ∧
      writeAddr (machine [1101, 104, 0, 4, 0, 77, 99]) 3 (pos 4) = .ok 4 ∧ (104 : Word) = 104 + 0 ∧ 0 < 4 ∧
      (0 + 4 + 0 : Nat) = 4) ∧
    writeAddr (pushInput 99 (machine [3, 5])) 1 (pos 5) = .ok 5 ∧ (pushInput 99 (machine [3, 5])).inq = [99] ∧
    3 < 4 ∧ (0 + 2 + 3 : Nat) = 5 := by decide
/-- Completed, and faulted at the destination. -/
theorem witness_ThreeOperandFrame :
    (execAfter (.mul (imm 2) (imm 3) (pos 7)) State.reset).isSome = true ∧ writeAddr State.reset 3 (pos 7) = .ok 7 ∧
    (execAfter (.mul (imm 2) (imm 3) (pos (-1))) State.reset).isSome = true ∧
    writeAddr State.reset 3 (pos (-1)) = .error (.invalidAddress 3 0 (-1) .write) := by decide
theorem witness_InputFrame :
    (execAfter (.input (pos 7)) (pushInput 5 State.reset)).isSome = true ∧
    writeAddr (pushInput 5 State.reset) 1 (pos 7) = .ok 7 ∧
    (execAfter (.input (pos 7)) State.reset).isSome = true ∧ State.reset.inq = [] ∧
    writeAddr State.reset 1 (pos (-1)) = .error (.invalidAddress 1 0 (-1) .write) := by decide
theorem witness_NonStoringFrame :
    (Instr.output (imm 1)).dest = none ∧ (execAfter (.output (imm 1)) State.reset).isSome = true ∧
    Instr.halt.dest = none ∧ (execAfter .halt State.reset).isSome = true := by decide

/-! ## Witnesses: the step -/

theorem witness_StepRunsTheDecodedInstruction :
    (machine [99]).state = .running ∧ decode (machine [99]).fetchWords = .ok .halt ∧
    (machine [0]).state = .running ∧ decode (machine [0]).fetchWords = .error .invalidOpcode := by decide
theorem witness_StepOutsideRunningChangesNothing :
    ({ State.reset with state := .halted }).state ≠ .running := by decide
theorem witness_StepFollowsThePseudocode : State.reset.state = .running := by decide
theorem witness_StepIsAllOrNothing : (machine [1105, 1, 7]).state = .running ∧
    (after (machine [1105, 1, 7])).isSome = true := by decide
/-- A taken jump, an instruction that is no jump, and a halt. -/
theorem witness_InstructionPointerAfterAStep :
    decode (machine [104, 1]).fetchWords = .ok (.output (imm 1)) ∧
    (after (machine [104, 1])).map State.state = some .running ∧
    (machine [1106, 0, 7]).state = .running ∧
    decode (machine [1106, 0, 7]).fetchWords = .ok (.jumpIfFalse (imm 0) (imm 7)) ∧
    (after (machine [1106, 0, 7])).map State.state = some .running ∧
    decode (machine [99]).fetchWords = .ok .halt ∧ (after (machine [99])).map State.state = some .halted := by decide
theorem witness_OnlyAdjustRelativeBaseChangesTheBase :
    (after (machine [109, 1])).map State.rb = some 1 ∧ (machine [109, 1]).rb = 0 := by decide
theorem witness_OnlyAnEmptyQueueSuspends : (machine [3, 5]).state = .running ∧
    (after (machine [3, 5])).map State.state = some .awaitingInput := by decide
/-- A memory that differs from the machine's at an address the step does not read: address 3 of a jump. -/
theorem witness_StepReadsOnlyItsListedWords :
    (machine [1105, 1, 7]).state = .running ∧
    (∀ a ∈ stepReads (machine [1105, 1, 7]),
      ((machine [1105, 1, 7]).mem.write 3 42).read a = (machine [1105, 1, 7]).mem.read a) ∧
    (machine [1105, 1, 7]).mem.write 3 42 ≠ (machine [1105, 1, 7]).mem ∧
    (after (machine [1105, 1, 7])).isSome = true ∧
    (after { machine [1105, 1, 7] with mem := (machine [1105, 1, 7]).mem.write 3 42 }).isSome = true := by decide
/-- An add makes all seven accesses, the store last. -/
theorem witness_StepAccessesAreBounded :
    stepAccesses (machine [1, 5, 6, 7, 99, 20, 22, 0]) =
      [.word 0, .parameter 1 1, .operand 1 5, .parameter 2 2, .operand 2 6, .parameter 3 3, .store 7] := by decide

/-! ## Witnesses: invariants -/

/-- A machine suspended at `input [5]` (S6), with one value returned already. -/
def waiting : State := { machine [3, 5, 4, 5, 99, 0] with state := .awaitingInput, out := [8], outMark := 1 }

theorem waiting_inv : waiting.Inv where
  memCanonical := by decide
  canonCanonical := by decide
  faultIffFaulted := by decide
  faultHere := fun r h => by cases h
  markInRange := by decide
  suspendedAtInput := fun _ => ⟨by decide, by decide, pos 5, 5, by decide, by decide⟩
  haltedAtHalt := fun h => absurd h (by decide)

/-- The same machine with a value pushed. -/
theorem waiting_pushed_inv : (pushInput 5 waiting).Inv where
  memCanonical := by decide
  canonCanonical := by decide
  faultIffFaulted := by decide
  faultHere := fun r h => by cases h
  markInRange := by decide
  suspendedAtInput := fun _ => ⟨by decide, by decide, pos 5, 5, by decide, by decide⟩
  haltedAtHalt := fun h => absurd h (by decide)

/-- A running machine in mid-program, away from its start state. -/
def midway : State := { machine [1, 0, 0, 9, 204, -2] with ip := 4, rb := 5, out := [1, 2], outMark := 1 }

theorem midway_inv : midway.Inv where
  memCanonical := by decide
  canonCanonical := by decide
  faultIffFaulted := by decide
  faultHere := fun r h => by cases h
  markInRange := by decide
  suspendedAtInput := fun h => absurd h (by decide)
  haltedAtHalt := fun h => absurd h (by decide)

/-- A machine halted at a halt instruction. -/
def stopped : State := { machine [104, 1, 99] with ip := 2, out := [1], outMark := 1, state := .halted }

theorem stopped_inv : stopped.Inv where
  memCanonical := by decide
  canonCanonical := by decide
  faultIffFaulted := by decide
  faultHere := fun r h => by cases h
  markInRange := by decide
  suspendedAtInput := fun h => absurd h (by decide)
  haltedAtHalt := fun _ => by decide

theorem witness_EveryStepKeepsTheInvariant :
    midway.Inv ∧ (after midway).map (fun t => (t.out, t.ip)) = some ([1, 2, 9], 6) := ⟨midway_inv, by decide⟩

theorem witness_StartStatesHaveTheInvariant : (newMachine [(1000, -7), (0, 99)] (some "a")).isSome = true := by decide

/-- A history of a constructed machine: pushes, a run, and its end. -/
def history : List DriverEvent :=
  [.pushInput 5, .callRun, .engineStep, .pushInput 6, .engineStep, .engineStep, .returnRun, .peek]

theorem witness_EveryReachableStateIsSound :
    newMachine (imageOfList [3, 5, 4, 5, 99, 0]) none = some (machine [3, 5, 4, 5, 99, 0]) ∧
    (Session.fireAll history ⟨machine [3, 5, 4, 5, 99, 0], false⟩).map (fun x => (x.machine.out, x.machine.state)) =
      some ([5], .halted) := by decide

/-- A settled machine that takes an event and returns from a call. -/
theorem witness_EveryEventKeepsTheInvariants :
    (waiting.Inv ∧ (Session.fire .callRun ⟨waiting, false⟩).map Session.inRun = some true) ∧
    (Session.Settled ⟨waiting, false⟩ ∧ (Session.fire .reset ⟨waiting, false⟩).isSome = true) ∧
    Session.Settled ⟨midway, true⟩ :=
  ⟨⟨waiting_inv, by decide⟩, ⟨fun _ => by decide, by decide⟩, fun h => by cases h⟩

/-! ## Witnesses: the driver's operations -/

/-- A sparse image (vX3), and the two kinds of bad image. -/
theorem witness_ConstructionGivesTheStartState :
    (newMachine [(0, 1105), (1, 1), (2, 1000), (1000, 104), (1001, -3), (1002, 99)] none).isSome = true ∧
    newMachine [(-1, 5)] none = none ∧ newMachine [(3, 5), (3, 5)] none = none := by decide
theorem witness_ResetRestoresTheConstructedMachine :
    newMachine (imageOfList [1101, 1, 1, 0]) (some "b") =
      some { machine [1101, 1, 1, 0] with identity := some "b" } ∧
    (Session.fireAll [.callRun, .engineStep, .engineStep, .returnRun]
      ⟨{ machine [1101, 1, 1, 0] with identity := some "b" }, false⟩).map
        (fun x => (x.machine.mem.read 0, x.machine.state)) = some (2, .faulted) := by decide
theorem witness_CanonicalImageNeverChanges :
    (Session.fireAll (history ++ [.reset]) ⟨machine [3, 5, 4, 5, 99, 0], false⟩).isSome = true := by decide
/-- Every event but `reset` that a terminal machine takes. -/
theorem witness_OnlyResetLeavesATerminalState :
    stopped.state.terminal = true ∧ (Session.fire .returnRun ⟨stopped, true⟩).isSome = true ∧
    (Session.fire .callRun ⟨stopped, false⟩).isSome = true ∧ (Session.fire .peek ⟨stopped, false⟩).isSome = true ∧
    (Session.fire (.pushInput 4) ⟨stopped, false⟩).isSome = true ∧
    DriverEvent.pushInput 4 ≠ .reset := by decide
theorem witness_OutputOnlyGrowsUntilReset : DriverEvent.reset ∉ history ∧
    (Session.fireAll history ⟨machine [3, 5, 4, 5, 99, 0], false⟩).isSome = true := by decide
theorem witness_InputIsConsumedInOrder : DriverEvent.reset ∉ history ∧
    (Session.fireAll history ⟨machine [3, 5, 4, 5, 99, 0], false⟩).map (fun x => x.machine.inq) = some [6] := by decide
theorem witness_PushAndStepCommute : (pushInput 1 (machine [3, 5])).state = .running ∧
    (after (pushInput 1 (machine [3, 5]))).map State.state = some .running := by decide
theorem witness_RunReturnsTheNewOutput : midway.outMark ≤ midway.out.length ∧ (run 2 midway).isSome = true := by decide
theorem witness_RunOnATerminalMachineExecutesNothing : stopped.state = .halted ∧
    (stopped.raise .invalidOpcode).state = .faulted := by decide
theorem witness_RunRetriesTheSuspendedInput :
    (waiting.Inv ∧ waiting.state = .awaitingInput ∧ waiting.inq = []) ∧
    (pushInput 5 waiting).Inv ∧ (pushInput 5 waiting).state = .awaitingInput ∧
      (pushInput 5 waiting).inq = [5] :=
  ⟨⟨waiting_inv, by decide⟩, waiting_pushed_inv, by decide⟩
theorem witness_MoreStepsDoNotChangeARun : (run 1 (machine [99])).isSome = true := by decide
/-- vX11. -/
theorem witness_AJumpToItselfNeverReturns : (machine [1105, 1, 0]).state = .running ∧ (1 : Word) ≠ 0 ∧
    decode (machine [1105, 1, 0]).fetchWords =
      .ok (.jumpIfTrue (imm 1) (imm ((machine [1105, 1, 0]).ip : Int))) := by decide
theorem witness_RunIsAScheduleOfEvents : (run 3 (machine [104, 1, 99])).isSome = true := by decide

/-! ## Witnesses: several machines (P5, R231) -/

/-- A machine that has returned the value 10, wired to one that waits (P5). -/
def pair : Pipeline where
  machines := [⟨{ stopped with out := [10], outMark := 0 }, true⟩, ⟨waiting, false⟩]
  wires := [⟨0, 1, []⟩]

theorem witness_MachinesAreIsolated : (pair.fireAt 0 .returnRun).isSome = true ∧ pair.wires[0]? = some ⟨0, 1, []⟩ ∧
    (pair.fireAt 0 (.pushInput 4)).isSome = true ∧ (1 : Nat) ≠ 0 := by decide
/-- The returned 10 goes onto the wire, and from there into the target's queue. -/
theorem witness_WiresCarryValuesInOrder :
    pair.wires[0]? = some ⟨0, 1, []⟩ ∧ pair.machines[0]? = some ⟨{ stopped with out := [10], outMark := 0 }, true⟩ ∧
    (pair.fireAt 0 .returnRun).map Pipeline.wires = some [⟨0, 1, [10]⟩] ∧
    ((pair.fireAt 0 .returnRun).bind (fun q => q.machines[1]?)) = some ⟨waiting, false⟩ ∧
    ((pair.fireAt 0 .returnRun).bind (fun q => q.deliver 0)).map
      (fun q => q.machines.map (fun x => x.machine.inq)) = some [[], [10]] := by decide
/-- One machine halted, one waiting, nothing in flight. -/
def stuckPair : Pipeline where
  machines := [⟨stopped, false⟩, ⟨waiting, false⟩]
  wires := [⟨0, 1, []⟩]

theorem stuckPair_inv : stuckPair.Inv := by
  intro x hx
  rcases List.mem_cons.1 hx with rfl | hx
  · exact ⟨stopped_inv, fun _ => by decide⟩
  · rcases List.mem_cons.1 hx with rfl | hx
    · exact ⟨waiting_inv, fun _ => by decide⟩
    · cases hx

theorem witness_AStuckPipelineMakesNoProgress : stuckPair.stuck = true ∧ stuckPair.Inv :=
  ⟨by decide, stuckPair_inv⟩

/-- The same two machines with a value in flight: an event of one and a delivery to the other both happen. -/
theorem witness_EveryEventKeepsTheInvariants_pipeline :
    Pipeline.Inv ⟨stuckPair.machines, [⟨0, 1, [5]⟩]⟩ ∧
    (Pipeline.fireAt ⟨stuckPair.machines, [⟨0, 1, [5]⟩]⟩ 0 (.pushInput 4)).isSome = true ∧
    (Pipeline.deliver ⟨stuckPair.machines, [⟨0, 1, [5]⟩]⟩ 0).isSome = true :=
  ⟨stuckPair_inv, by decide⟩

end Sys2Proof.Tests
end

section
/-! SUPPORT. What the decoder answers, and that every cause of a fault is within the ranges of R27. -/

namespace Sys2Proof.Machine

/-! ## Errors of a computation -/

/-- Every error the computation can end in has the property `P`. -/
def ErrorsMeet {ε α : Type} (P : ε → Prop) (r : Except ε α) : Prop := ∀ e, r = .error e → P e

section
variable {ε α β : Type} {P : ε → Prop}

theorem ErrorsMeet.ok (v : α) : ErrorsMeet P (.ok v) := fun _ h => by cases h

theorem ErrorsMeet.error {e : ε} (h : P e) : ErrorsMeet P (.error e : Except ε α) := fun _ h' => by
  cases h'; exact h

theorem ErrorsMeet.bind {r : Except ε α} {f : α → Except ε β} (hr : ErrorsMeet P r)
    (hf : ∀ v, ErrorsMeet P (f v)) : ErrorsMeet P (r >>= f) := by
  cases r with
  | ok v => exact hf v
  | error e => exact .error (hr e rfl)

theorem except_bind_ok_iff {r : Except ε α} {f : α → Except ε β} {v : β} :
    r >>= f = .ok v ↔ ∃ u, r = .ok u ∧ f u = .ok v := by
  cases r <;> simp [Bind.bind, Except.bind]

end

/-! ## Rejections by the decoder -/

/-- R27: the fault of a rejection has fields within their ranges. -/
def SoundError (e : DecodeError) : Prop := (decodeCause e).sound

theorem mode_le_nine (w k : Nat) : mode w k ≤ 9 := by
  simp only [mode, digit]; omega

theorem three_le_of_ofDigit_none {n : Nat} (h : Mode.ofDigit n = none) : 3 ≤ n :=
  match n, h with
  | n + 3, _ => Nat.le_add_left 3 n

theorem soundError_unknownMode {w k : Nat} (hk : 1 ≤ k ∧ k ≤ 3) (h : Mode.ofDigit (mode w k) = none) :
    SoundError (.invalidOperand k (mode w k) .unknownMode) :=
  ⟨hk.1, hk.2, three_le_of_ofDigit_none h, mode_le_nine w k⟩

theorem readOperand_errors {w k : Nat} {p : Word} (hk : 1 ≤ k ∧ k ≤ 3) :
    ErrorsMeet SoundError (readOperand w k p) := by
  unfold readOperand
  split
  · exact .ok _
  · next h => exact .error (soundError_unknownMode hk h)

theorem writeOperand_errors {w k : Nat} {p : Word} (hk : k = 1 ∨ k = 3) :
    ErrorsMeet SoundError (writeOperand w k p) := by
  unfold writeOperand
  split
  · exact .error ⟨hk, rfl⟩
  · exact .ok _
  · next h => exact .error (soundError_unknownMode (by omega) h)

theorem decodeR1_errors {mk : Operand → Instr} {w : Nat} {p1 : Word} :
    ErrorsMeet SoundError (decodeR1 mk w p1) :=
  (readOperand_errors (by decide)).bind fun _ => .ok _

theorem decodeW1_errors {mk : Operand → Instr} {w : Nat} {p1 : Word} :
    ErrorsMeet SoundError (decodeW1 mk w p1) :=
  (writeOperand_errors (by decide)).bind fun _ => .ok _

theorem decodeRR_errors {mk : Operand → Operand → Instr} {w : Nat} {p1 p2 : Word} :
    ErrorsMeet SoundError (decodeRR mk w p1 p2) :=
  (readOperand_errors (by decide)).bind fun _ => (readOperand_errors (by decide)).bind fun _ => .ok _

theorem decodeRRW_errors {mk : Operand → Operand → Operand → Instr} {w : Nat} {p1 p2 p3 : Word} :
    ErrorsMeet SoundError (decodeRRW mk w p1 p2 p3) :=
  (readOperand_errors (by decide)).bind fun _ => (readOperand_errors (by decide)).bind fun _ =>
    (writeOperand_errors (by decide)).bind fun _ => .ok _

/-- R106, R212: every rejection of a word names a parameter and a mode digit within their ranges. -/
theorem decode_errors (ws : List Word) : ErrorsMeet SoundError (decode ws) := by
  unfold decode
  split
  · exact .error trivial
  · unfold decodeFields
    split
    · exact decodeRRW_errors
    · exact decodeRRW_errors
    · exact decodeW1_errors
    · exact decodeR1_errors
    · exact decodeRR_errors
    · exact decodeRR_errors
    · exact decodeRRW_errors
    · exact decodeRRW_errors
    · exact decodeR1_errors
    · exact .ok _
    · exact .error trivial

/-! ## The operation code of a decoded instruction -/

section
variable {w : Nat} {p1 p2 p3 : Word} {i : Instr}

theorem decodeR1_ok {mk : Operand → Instr} (h : decodeR1 mk w p1 = .ok i) : ∃ a, i = mk a := by
  obtain ⟨a, -, h⟩ := except_bind_ok_iff.1 h
  cases h; exact ⟨a, rfl⟩

theorem decodeW1_ok {mk : Operand → Instr} (h : decodeW1 mk w p1 = .ok i) : ∃ dest, i = mk dest := by
  obtain ⟨dest, -, h⟩ := except_bind_ok_iff.1 h
  cases h; exact ⟨dest, rfl⟩

theorem decodeRR_ok {mk : Operand → Operand → Instr} (h : decodeRR mk w p1 p2 = .ok i) :
    ∃ a b, i = mk a b := by
  obtain ⟨a, -, h⟩ := except_bind_ok_iff.1 h
  obtain ⟨b, -, h⟩ := except_bind_ok_iff.1 h
  cases h; exact ⟨a, b, rfl⟩

theorem decodeRRW_ok {mk : Operand → Operand → Operand → Instr} (h : decodeRRW mk w p1 p2 p3 = .ok i) :
    ∃ a b dest, i = mk a b dest := by
  obtain ⟨a, -, h⟩ := except_bind_ok_iff.1 h
  obtain ⟨b, -, h⟩ := except_bind_ok_iff.1 h
  obtain ⟨dest, -, h⟩ := except_bind_ok_iff.1 h
  cases h; exact ⟨a, b, dest, rfl⟩

/-- R76: a word decodes only to the instruction its operation code names. -/
theorem decodeFields_opcode (h : decodeFields w p1 p2 p3 = .ok i) : opcode w = i.opcode := by
  unfold decodeFields at h
  split at h
  case h_1 ho => obtain ⟨a, b, dest, rfl⟩ := decodeRRW_ok h; exact ho
  case h_2 ho => obtain ⟨a, b, dest, rfl⟩ := decodeRRW_ok h; exact ho
  case h_3 ho => obtain ⟨dest, rfl⟩ := decodeW1_ok h; exact ho
  case h_4 ho => obtain ⟨a, rfl⟩ := decodeR1_ok h; exact ho
  case h_5 ho => obtain ⟨a, b, rfl⟩ := decodeRR_ok h; exact ho
  case h_6 ho => obtain ⟨a, b, rfl⟩ := decodeRR_ok h; exact ho
  case h_7 ho => obtain ⟨a, b, dest, rfl⟩ := decodeRRW_ok h; exact ho
  case h_8 ho => obtain ⟨a, b, dest, rfl⟩ := decodeRRW_ok h; exact ho
  case h_9 ho => obtain ⟨a, rfl⟩ := decodeR1_ok h; exact ho
  case h_10 ho => cases h; exact ho
  case h_11 => cases h

end

/-- R76, R80: the instruction word of a decoded instruction is not negative and has its operation code. -/
theorem decode_opcode {ws : List Word} {i : Instr} (h : decode ws = .ok i) :
    0 ≤ wordAt ws 0 ∧ opcode (wordAt ws 0).toNat = i.opcode := by
  unfold decode at h
  split at h
  · cases h
  · next hw => exact ⟨not_lt.1 hw, decodeFields_opcode h⟩

@[simp] theorem wordAt_fetchWords_zero (s : State) : wordAt s.fetchWords 0 = s.mem.read s.ip := rfl

/-! ## Faults of operand resolution -/

section
variable {s : State} {k : Nat} {a b dest o : Operand}

theorem readValue_errors (hk : 1 ≤ k ∧ k ≤ 3) : ErrorsMeet FaultCause.sound (readValue s k o) := by
  unfold readValue Memory.readAt
  split
  · exact .ok _
  · next adr _ =>
    by_cases hadr : adr < 0
    · simpa [hadr] using ErrorsMeet.error ⟨hk.1, hk.2, Laws.EncodedFields.digit_le _, hadr⟩
    · simpa [hadr] using ErrorsMeet.ok _

theorem checkedAddress_errors {m : Mode} {acc : Access} {n : Int} (hk : 1 ≤ k ∧ k ≤ 3) :
    ErrorsMeet FaultCause.sound (checkedAddress k m acc n) := by
  intro c hc
  obtain ⟨hn, rfl⟩ := checkedAddress_error_iff.1 hc
  exact ⟨hk.1, hk.2, Laws.EncodedFields.digit_le m, hn⟩

theorem checkDest_errors (hk : k = 1 ∨ k = 3) : ErrorsMeet FaultCause.sound (checkDest k o) := by
  by_cases hm : o.mode = .immediate
  · rw [checkDest_of_immediate hm]; exact .error ⟨hk, rfl⟩
  · rw [checkDest_of_writable hm]; exact .ok _

theorem writeAddr_errors (hk : k = 1 ∨ k = 3) : ErrorsMeet FaultCause.sound (writeAddr s k o) := by
  cases hm : o.mode with
  | immediate => simpa [writeAddr, operandAddress, hm] using ErrorsMeet.error ⟨hk, rfl⟩
  | position => simpa [writeAddr, operandAddress, hm] using checkedAddress_errors (by omega)
  | relative => simpa [writeAddr, operandAddress, hm] using checkedAddress_errors (by omega)

theorem resolveRR_errors : ErrorsMeet FaultCause.sound (resolveRR s a b) :=
  (readValue_errors (by decide)).bind fun _ => (readValue_errors (by decide)).bind fun _ => .ok _

theorem resolveRRW_errors : ErrorsMeet FaultCause.sound (resolveRRW s a b dest) :=
  (checkDest_errors (by decide)).bind fun _ => (readValue_errors (by decide)).bind fun _ =>
    (readValue_errors (by decide)).bind fun _ => (writeAddr_errors (by decide)).bind fun _ => .ok _

theorem resolveW_errors : ErrorsMeet FaultCause.sound (resolveW s dest) :=
  (checkDest_errors (by decide)).bind fun _ => writeAddr_errors (by decide)

end

end Sys2Proof.Machine
end

section
/-! SUPPORT. What one step can do to each part of the state, and that it keeps the invariants of R36. -/

namespace Sys2Proof.Machine

variable {s t : State} {c : FaultCause} {i : Instr}

/-! ## The faults a step takes -/

theorem raise_injective {c' : FaultCause} (h : s.raise c = s.raise c') : c = c' := by
  simpa using congrArg State.fault h

/-- A fault taken is no state that is not faulted. -/
theorem ne_raise (ht : t.state ≠ .faulted) : s.raise c ≠ t := fun h => ht (h ▸ rfl)

/-- A fault among the errors of a computation whose errors are all sound. -/
theorem sound_of_raise {α : Type} {r : Except FaultCause α} (hr : ErrorsMeet FaultCause.sound r) {c' : FaultCause}
    (h : r = .error c') (ht : s.raise c = s.raise c') : c.sound :=
  raise_injective ht ▸ hr c' h

theorem execRRW_raise_sound {f : Word → Word → Word} {a b dest : Operand} (hs : s.state ≠ .faulted)
    (h : execRRW f a b dest s = .next (s.raise c)) : c.sound := by
  rcases execRRW_next h with ⟨x, y, d, -, -, -, ht⟩ | ⟨c', hr, ht⟩
  · exact absurd ht (ne_raise hs)
  · exact sound_of_raise resolveRRW_errors hr ht

theorem execJump_raise_sound {taken : Word → Bool} {a b : Operand} (hs : s.state ≠ .faulted)
    (h : execJump taken a b s = .next (s.raise c)) : c.sound := by
  rcases execJump_next h with ⟨x, y, -, -, ⟨-, -, ht⟩ | ⟨-, hy, ht⟩ | ⟨-, ht⟩⟩ | ⟨c', hr, ht⟩
  · exact absurd ht (ne_raise hs)
  · exact raise_injective ht ▸ ⟨by decide, by decide, Laws.EncodedFields.digit_le b.mode, hy⟩
  · exact absurd ht (ne_raise hs)
  · exact sound_of_raise resolveRR_errors hr ht

theorem execInput_raise_sound {dest : Operand} (hs : s.state ≠ .faulted)
    (h : execInput dest s = .next (s.raise c)) : c.sound := by
  rcases execInput_next h with ⟨d, x, rest, -, -, ht⟩ | ⟨d, -, -, ht⟩ | ⟨c', hr, ht⟩
  · exact absurd ht (ne_raise hs)
  · exact absurd ht (ne_raise (by simp))
  · exact sound_of_raise resolveW_errors hr ht

theorem execOutput_raise_sound {a : Operand} (hs : s.state ≠ .faulted)
    (h : execOutput a s = .next (s.raise c)) : c.sound := by
  rcases execOutput_next h with ⟨x, -, ht⟩ | ⟨c', hr, ht⟩
  · exact absurd ht (ne_raise hs)
  · exact sound_of_raise (readValue_errors (by decide)) hr ht

theorem execAdjustRelativeBase_raise_sound {a : Operand} (hs : s.state ≠ .faulted)
    (h : execAdjustRelativeBase a s = .next (s.raise c)) : c.sound := by
  rcases execAdjustRelativeBase_next h with ⟨x, -, ht⟩ | ⟨c', hr, ht⟩
  · exact absurd ht (ne_raise hs)
  · exact sound_of_raise (readValue_errors (by decide)) hr ht

/-- R27: the cause an instruction records is within the ranges of its fields. -/
theorem exec_raise_sound (hs : s.state ≠ .faulted) (h : exec i s = .next (s.raise c)) : c.sound := by
  cases i with
  | add a b dest => exact execRRW_raise_sound hs h
  | mul a b dest => exact execRRW_raise_sound hs h
  | input dest => exact execInput_raise_sound hs h
  | output a => exact execOutput_raise_sound hs h
  | jumpIfTrue a b => exact execJump_raise_sound hs h
  | jumpIfFalse a b =>
    simp only [exec, execJumpIfFalse] at h
    exact execJump_raise_sound hs h
  | lessThan a b dest =>
    simp only [exec, execLessThan] at h
    exact execRRW_raise_sound hs h
  | equals a b dest =>
    simp only [exec, execEquals] at h
    exact execRRW_raise_sound hs h
  | adjustRelativeBase a => exact execAdjustRelativeBase_raise_sound hs h
  | halt => exact absurd (execHalt_next h) (ne_raise (by simp))

/-- A step outside `running` changes nothing; a step in it takes a sound fault or has the effect of the decoded
instruction. -/
theorem step_next_cases (h : step s = .next t) :
    t = s ∨ s.state = .running ∧
      ((∃ c, c.sound ∧ t = s.raise c) ∨ ∃ i, decode s.fetchWords = .ok i ∧ exec i s = .next t) := by
  by_cases hs : s.state = .running
  · rw [step_of_running hs] at h
    cases hd : decode s.fetchWords with
    | ok i => rw [hd] at h; exact .inr ⟨hs, .inr ⟨i, rfl, h⟩⟩
    | error e =>
      rw [hd] at h
      exact .inr ⟨hs, .inl ⟨decodeCause e, decode_errors _ e hd, by simpa [eq_comm] using h⟩⟩
  · rw [step_of_not_running hs] at h
    exact .inl (by simpa [eq_comm] using h)

/-! ## Changes of state that keep the invariants -/

theorem writeAddr_congr (h : t.rb = s.rb) (k : Nat) (o : Operand) : writeAddr t k o = writeAddr s k o := by
  simp [writeAddr, operandAddress, h]

theorem State.Inv.fault_eq_none (h : s.Inv) (hs : s.state ≠ .faulted) : s.fault = none := by
  simpa using mt h.faultIffFaulted.1 hs

/-- A running machine has only its memories and its mark to keep in order. -/
theorem State.Inv.of_running (hs : t.state = .running) (hf : t.fault = none) (hm : t.mem.wf = true)
    (hc : t.canon.wf = true) (ho : t.outMark ≤ t.out.length) : t.Inv where
  memCanonical := hm
  canonCanonical := hc
  faultIffFaulted := by simp [hs, hf]
  faultHere := by simp [hf]
  markInRange := ho
  suspendedAtInput := by simp [hs]
  haltedAtHalt := by simp [hs]

/-- The invariants do not look at the input queue or the label, and at the output only through the mark. -/
theorem State.Inv.congr (h : s.Inv) (hm : t.mem = s.mem) (hi : t.ip = s.ip) (hr : t.rb = s.rb)
    (hs : t.state = s.state) (hf : t.fault = s.fault) (hc : t.canon = s.canon)
    (ho : t.outMark ≤ t.out.length) : t.Inv where
  memCanonical := hm ▸ h.memCanonical
  canonCanonical := hc ▸ h.canonCanonical
  faultIffFaulted := by rw [hf, hs]; exact h.faultIffFaulted
  faultHere := by rw [hf, hi, hm]; exact h.faultHere
  markInRange := ho
  suspendedAtInput := by
    simp only [fetchWords_congr hm hi, writeAddr_congr hr, hs, hm, hi]; exact h.suspendedAtInput
  haltedAtHalt := by rw [hs, hm, hi]; exact h.haltedAtHalt

theorem State.Inv.raise (h : s.Inv) (hc : c.sound) : (s.raise c).Inv where
  memCanonical := h.memCanonical
  canonCanonical := h.canonCanonical
  faultIffFaulted := by simp
  faultHere := by rintro r ⟨⟩; exact ⟨rfl, rfl, hc⟩
  markInRange := h.markInRange
  suspendedAtInput := nofun
  haltedAtHalt := nofun

theorem State.Inv.suspend (h : s.Inv) (hs : s.state = .running) {dest : Operand} {d : Addr}
    (hi : decode s.fetchWords = .ok (.input dest)) (hd : writeAddr s 1 dest = .ok d) : s.suspend.Inv where
  memCanonical := h.memCanonical
  canonCanonical := h.canonCanonical
  faultIffFaulted := by simp [h.fault_eq_none (by simp [hs])]
  faultHere := h.faultHere
  markInRange := h.markInRange
  suspendedAtInput := fun _ => ⟨(decode_opcode hi).1, (decode_opcode hi).2, dest, d, hi, hd⟩
  haltedAtHalt := nofun

theorem State.Inv.stop (h : s.Inv) (hs : s.state = .running) (hi : decode s.fetchWords = .ok .halt) :
    s.stop.Inv where
  memCanonical := h.memCanonical
  canonCanonical := h.canonCanonical
  faultIffFaulted := by simp [h.fault_eq_none (by simp [hs])]
  faultHere := h.faultHere
  markInRange := h.markInRange
  suspendedAtInput := nofun
  haltedAtHalt := fun _ => decode_opcode hi

/-- R36: the effect of the decoded instruction keeps the invariants. -/
theorem State.Inv.exec (h : s.Inv) (hs : s.state = .running) (hi : decode s.fetchWords = .ok i)
    (ht : exec i s = .next t) : t.Inv := by
  have hf : s.fault = none := h.fault_eq_none (by simp [hs])
  cases exec_effect ht with
  | raised i c he => subst he; exact h.raise (exec_raise_sound (by simp [hs]) ht)
  | stored _ _ _ _ _ _ _ d _ _ _ _ he =>
    subst he; exact .of_running hs hf (Memory.wf_write d _ h.memCanonical) h.canonCanonical h.markInRange
  | took _ d _ _ _ _ he =>
    subst he; exact .of_running hs hf (Memory.wf_write d _ h.memCanonical) h.canonCanonical h.markInRange
  | suspended _ _ hd _ he => subst he; exact h.suspend hs hi hd
  | emitted a x _ he =>
    subst he
    exact .of_running hs hf h.memCanonical h.canonCanonical (by simpa using Nat.le_succ_of_le h.markInRange)
  | adjusted a x _ he => subst he; exact .of_running hs hf h.memCanonical h.canonCanonical h.markInRange
  | halted he => subst he; exact h.stop hs hi
  | jumped _ _ _ _ _ _ _ _ _ he =>
    subst he; exact .of_running hs hf h.memCanonical h.canonCanonical h.markInRange
  | passed _ _ _ _ _ _ _ _ he =>
    subst he; exact .of_running hs hf h.memCanonical h.canonCanonical h.markInRange

theorem State.Inv.step (h : s.Inv) (ht : step s = .next t) : t.Inv := by
  obtain rfl | ⟨hs, ⟨c, hc, rfl⟩ | ⟨i, hi, hx⟩⟩ := step_next_cases ht
  · exact h
  · exact h.raise hc
  · exact h.exec hs hi hx

/-- Settles O41: a step changes nothing, takes a sound fault, or has the effect of the decoded instruction, and each of
these keeps the invariants. -/
theorem everyStepKeepsTheInvariant : Obligations.EveryStepKeepsTheInvariant :=
  fun _ _ h ht => h.step ht

/-! ## Events and deliveries -/

theorem State.Inv.beginRun (h : s.Inv) : (beginRun s).Inv := by
  by_cases hs : s.state = .awaitingInput
  · exact .of_running (by simp [beginRun_state, hs]) (by simpa using h.fault_eq_none (by simp [hs]))
      (by simpa using h.memCanonical) (by simpa using h.canonCanonical) (by simpa using h.markInRange)
  · rwa [beginRun_of_not_awaiting hs]

theorem State.Inv.endRun (h : s.Inv) : (endRun s).2.Inv :=
  h.congr rfl rfl rfl rfl rfl rfl le_rfl

theorem State.Inv.pushInput (h : s.Inv) (v : Word) : (pushInput v s).Inv :=
  h.congr rfl rfl rfl rfl rfl rfl h.markInRange

theorem State.Inv.driverReset (h : s.Inv) : (driverReset s).Inv :=
  .of_running rfl rfl h.canonCanonical h.canonCanonical le_rfl

section
variable {x y : Session} {e : DriverEvent}

theorem State.Inv.fire (h : x.machine.Inv) (hy : x.fire e = some y) : y.machine.Inv := by
  cases e with
  | callRun => obtain ⟨-, rfl⟩ := fire_callRun.1 hy; exact h.beginRun
  | engineStep => obtain ⟨-, -, t, ht, rfl⟩ := fire_engineStep.1 hy; exact h.step ht
  | returnRun => obtain ⟨-, -, rfl⟩ := fire_returnRun.1 hy; exact h.endRun
  | pushInput v => rw [fire_pushInput] at hy; subst hy; exact h.pushInput v
  | reset => obtain ⟨-, rfl⟩ := fire_reset.1 hy; exact h.driverReset
  | peek => rw [fire_peek] at hy; subst hy; exact h

theorem Session.Settled.pushInput (h : x.Settled) (v : Word) :
    Session.Settled ⟨Machine.pushInput v x.machine, x.inRun⟩ := h

theorem Session.Settled.fire (h : x.Settled) (hy : x.fire e = some y) : y.Settled := by
  cases e with
  | callRun => obtain ⟨-, rfl⟩ := fire_callRun.1 hy; exact .of_inRun rfl
  | engineStep => obtain ⟨-, -, t, -, rfl⟩ := fire_engineStep.1 hy; exact .of_inRun rfl
  | returnRun => obtain ⟨-, -, rfl⟩ := fire_returnRun.1 hy; exact fun _ => rfl
  | pushInput v => rw [fire_pushInput] at hy; subst hy; exact h.pushInput v
  | reset => obtain ⟨-, rfl⟩ := fire_reset.1 hy; exact fun _ => rfl
  | peek => rw [fire_peek] at hy; subst hy; exact h

end

section
variable {p q : Pipeline}

theorem Pipeline.Inv.fireAt {m : Nat} {e : DriverEvent} (h : p.Inv) (hq : p.fireAt m e = some q) : q.Inv := by
  obtain ⟨x, y, hx, hy, rfl⟩ := fireAt_eq_some.1 hq
  obtain ⟨hinv, hset⟩ := h x (List.mem_of_getElem? hx)
  exact h.set ⟨hinv.fire hy, hset.fire hy⟩

theorem Pipeline.Inv.deliver {k : Nat} (h : p.Inv) (hq : p.deliver k = some q) : q.Inv := by
  obtain ⟨w, v, rest, x, -, -, hx, rfl⟩ := deliver_eq_some.1 hq
  obtain ⟨hinv, hset⟩ := h x (List.mem_of_getElem? hx)
  exact h.set ⟨hinv.pushInput v, hset.pushInput v⟩

end

/-- Settles O60: by cases on the event for one machine, and machine by machine for a pipeline. -/
theorem everyEventKeepsTheInvariants : Obligations.EveryEventKeepsTheInvariants :=
  ⟨fun _ _ _ h hy => h.fire hy, fun _ _ _ h hy => h.fire hy, fun _ _ _ _ h hq => h.fireAt hq,
    fun _ _ _ h hq => h.deliver hq⟩

end Sys2Proof.Machine
end

section
/-! SUPPORT. Canonical memories as functions of the address, and the memory of an image. -/

namespace Sys2Proof.Machine

namespace Memory

/-! ## A canonical memory is determined by what it reads as -/

theorem wf_pairwise {m : Memory} (h : m.wf = true) : m.Pairwise (fun c d => c.1 < d.1) := by
  rw [wf, Bool.and_eq_true] at h
  exact of_decide_eq_true h.1

/-- The entries of a canonical memory are exactly the words it reads as that are not the unset word. -/
theorem mem_iff_read {m : Memory} (h : m.wf = true) (a : Addr) (v : Word) :
    (a, v) ∈ m ↔ v ≠ Config.unsetWord ∧ m.read a = v := by
  induction m with
  | nil => simpa using fun hv => Ne.symm hv
  | cons c m ih =>
    obtain ⟨b, u⟩ := c
    obtain ⟨hlt, hu, hm⟩ := (wf_cons _ _).1 h
    rw [List.mem_cons, ih hm, read]
    by_cases hab : a = b
    · subst hab
      have hunlisted : ¬(v ≠ Config.unsetWord ∧ read m a = v) := fun hv =>
        lt_irrefl a (hlt (a, v) ((ih hm).2 hv))
      rw [or_iff_left hunlisted, if_pos rfl, Prod.mk.injEq, and_iff_right rfl]
      exact ⟨fun hvu => ⟨hvu ▸ hu, hvu.symm⟩, fun hvu => hvu.2.symm⟩
    · simp [hab]

theorem ext_of_wf {m m' : Memory} (h : m.wf = true) (h' : m'.wf = true) (hr : ∀ a, m.read a = m'.read a) :
    m = m' := by
  have hirrefl : Std.Irrefl fun c d : Addr × Word => c.1 < d.1 := ⟨fun c => lt_irrefl c.1⟩
  have hantisymm : Std.Antisymm fun c d : Addr × Word => c.1 < d.1 :=
    ⟨fun _ _ hcd hdc => absurd hcd hdc.asymm⟩
  refine (wf_pairwise h).eq_of_mem_iff (wf_pairwise h') fun c => ?_
  rw [mem_iff_read h, mem_iff_read h', hr]

/-! ## The memory of an image -/

theorem read_foldl_write_of_notMem {image : List (Addr × Word)} {a : Addr} (h : a ∉ image.map Prod.fst)
    (m : Memory) : (image.foldl (fun m c => m.write c.1 c.2) m).read a = m.read a := by
  induction image generalizing m with
  | nil => rfl
  | cons c image ih =>
    rw [List.map_cons, List.mem_cons, not_or] at h
    rw [List.foldl_cons, ih h.2, read_write, if_neg h.1]

theorem read_foldl_write_of_mem {image : List (Addr × Word)} (h : (image.map Prod.fst).Nodup)
    {c : Addr × Word} (hc : c ∈ image) (m : Memory) :
    (image.foldl (fun m c => m.write c.1 c.2) m).read c.1 = c.2 := by
  induction image generalizing m with
  | nil => cases hc
  | cons d image ih =>
    obtain ⟨hd, himage⟩ := List.nodup_cons.1 h
    rw [List.foldl_cons]
    rcases List.mem_cons.1 hc with rfl | hc
    · rw [read_foldl_write_of_notMem hd, read_write, if_pos rfl]
    · exact ih himage hc _

theorem read_ofImage_of_notMem {image : List (Addr × Word)} {a : Addr} (h : a ∉ image.map Prod.fst) :
    (ofImage image).read a = Config.unsetWord :=
  read_foldl_write_of_notMem h []

theorem read_ofImage_of_mem {image : List (Addr × Word)} (h : (image.map Prod.fst).Nodup) {c : Addr × Word}
    (hc : c ∈ image) : (ofImage image).read c.1 = c.2 :=
  read_foldl_write_of_mem h hc []

end Memory

/-- Settles O16: the entries of a canonical memory, which are sorted, are the words it reads as. -/
theorem memoriesThatReadAlikeAreEqual : Obligations.MemoriesThatReadAlikeAreEqual :=
  fun _ _ h h' => ⟨Memory.ext_of_wf h h', fun hm _ => hm ▸ rfl⟩

/-! ## Construction -/

section
variable {image : List (Int × Word)} {identity : Option String} {s : State}

theorem imageOk_iff :
    imageOk image = true ↔ (∀ c ∈ image, 0 ≤ c.1) ∧ (image.map Prod.fst).Nodup := by
  simp [imageOk]

theorem newMachine_eq_none :
    newMachine image identity = none ↔ (∃ c ∈ image, c.1 < 0) ∨ ¬(image.map Prod.fst).Nodup := by
  have hok : newMachine image identity = none ↔ ¬imageOk image = true := by simp [newMachine]
  rw [hok, imageOk_iff, not_and_or]
  simp

theorem newMachine_eq_some :
    newMachine image identity = some s ↔ imageOk image = true ∧
      constructed (Memory.ofImage (image.map fun c => (c.1.toNat, c.2))) identity = s := by
  simp [newMachine]

/-- Different addresses of a good image stay different as natural numbers. -/
theorem nodup_addresses (h : imageOk image = true) :
    ((image.map fun c => (c.1.toNat, c.2)).map Prod.fst).Nodup := by
  obtain ⟨hpos, hnodup⟩ := imageOk_iff.1 h
  have hmap : (image.map fun c => (c.1.toNat, c.2)).map Prod.fst = (image.map Prod.fst).map Int.toNat := by
    simp
  rw [hmap]
  refine hnodup.map_on fun n hn k hk hnk => ?_
  obtain ⟨c, hc, rfl⟩ := List.mem_map.1 hn
  obtain ⟨d, hd, rfl⟩ := List.mem_map.1 hk
  rw [← Int.toNat_of_nonneg (hpos c hc), hnk, Int.toNat_of_nonneg (hpos d hd)]

theorem notMem_addresses (h : imageOk image = true) {a : Addr} (ha : (a : Int) ∉ image.map Prod.fst) :
    a ∉ (image.map fun c => (c.1.toNat, c.2)).map Prod.fst := by
  intro hmem
  simp only [List.map_map, List.mem_map, Function.comp_apply] at hmem
  obtain ⟨c, hc, rfl⟩ := hmem
  rw [Int.toNat_of_nonneg ((imageOk_iff.1 h).1 c hc)] at ha
  exact ha (List.mem_map_of_mem hc)

end

/-- Settles O44: the memory of a list without repeated addresses holds each listed word, and 0 elsewhere. -/
theorem constructionGivesTheStartState : Obligations.ConstructionGivesTheStartState := by
  intro image identity
  refine ⟨newMachine_eq_none, fun s hs => ?_⟩
  obtain ⟨hok, rfl⟩ := newMachine_eq_some.1 hs
  refine ⟨fun c hc => ?_, fun a ha => ?_, rfl, rfl, rfl, rfl, rfl, rfl, rfl, rfl, rfl⟩
  · exact Memory.read_ofImage_of_mem (nodup_addresses hok) (List.mem_map_of_mem hc)
  · exact Memory.read_ofImage_of_notMem (notMem_addresses hok ha)

theorem State.Inv.constructed {m : Memory} (h : m.wf = true) (identity : Option String) :
    (constructed m identity).Inv :=
  .of_running rfl rfl h h le_rfl

theorem State.Inv.newMachine {image : List (Int × Word)} {identity : Option String} {s : State}
    (h : newMachine image identity = some s) : s.Inv := by
  obtain ⟨-, rfl⟩ := newMachine_eq_some.1 h
  exact .constructed (Memory.wf_ofImage _) identity

/-- Settles O42: `State.reset` is the machine of the empty image, and every image's memory is canonical. -/
theorem startStatesHaveTheInvariant : Obligations.StartStatesHaveTheInvariant :=
  ⟨.constructed Memory.wf_nil none, fun _ _ _ h => .newMachine h⟩

end Sys2Proof.Machine
end

section
/-! SUPPORT. What a step can do to each register, and what holds along a history of events. -/

namespace Sys2Proof.Machine

/-! ## One field at a time, in one step -/

section
variable {s t : State} {i : Instr}

theorem exec_canon_identity (h : exec i s = .next t) : t.canon = s.canon ∧ t.identity = s.identity := by
  cases exec_effect h <;> subst t <;> exact ⟨rfl, rfl⟩

theorem step_canon_identity (h : step s = .next t) : t.canon = s.canon ∧ t.identity = s.identity := by
  obtain rfl | ⟨-, ⟨c, -, rfl⟩ | ⟨i, -, hx⟩⟩ := step_next_cases h
  · exact ⟨rfl, rfl⟩
  · exact ⟨rfl, rfl⟩
  · exact exec_canon_identity hx

/-- R32: an output instruction appends its value, and no other touches the output. -/
theorem exec_out_prefix (h : exec i s = .next t) : s.out <+: t.out := by
  cases exec_effect h
  case emitted a x _ ht => subst ht; exact List.prefix_append s.out [x]
  all_goals subst t; exact List.prefix_rfl

theorem step_out_prefix (h : step s = .next t) : s.out <+: t.out := by
  obtain rfl | ⟨-, ⟨c, -, rfl⟩ | ⟨i, -, hx⟩⟩ := step_next_cases h
  · exact List.prefix_rfl
  · exact List.prefix_rfl
  · exact exec_out_prefix hx

/-- R31: an input instruction takes the oldest element, and no other touches the queue. -/
theorem exec_inq_suffix (h : exec i s = .next t) : t.inq <:+ s.inq := by
  cases exec_effect h
  case took dest d x rest _ hq ht => subst ht; rw [hq]; exact List.suffix_cons x rest
  all_goals subst t; exact List.suffix_rfl

theorem step_inq_suffix (h : step s = .next t) : t.inq <:+ s.inq := by
  obtain rfl | ⟨-, ⟨c, -, rfl⟩ | ⟨i, -, hx⟩⟩ := step_next_cases h
  · exact List.suffix_rfl
  · exact List.suffix_rfl
  · exact exec_inq_suffix hx

theorem exec_rb (h : exec i s = .next t) (hrb : t.rb ≠ s.rb) :
    ∃ a x, i = .adjustRelativeBase a ∧ readValue s 1 a = .ok x ∧ t.rb = s.rb + x := by
  cases exec_effect h
  case adjusted a x ha ht => subst ht; exact ⟨a, x, rfl, ha, rfl⟩
  all_goals subst t; exact absurd rfl hrb

end

/-- Settles O37: of all effects of a step only that of adjust-relative-base changes `rb`. -/
theorem onlyAdjustRelativeBaseChangesTheBase : Obligations.OnlyAdjustRelativeBaseChangesTheBase := by
  intro s t h hrb
  obtain rfl | ⟨-, ⟨c, -, rfl⟩ | ⟨i, hi, hx⟩⟩ := step_next_cases h
  · exact absurd rfl hrb
  · exact absurd rfl hrb
  · obtain ⟨a, x, rfl, ha, ht⟩ := exec_rb hx hrb
    exact ⟨a, x, hi, ha, ht⟩

/-! ## One field at a time, in one event -/

section
variable {x y : Session} {e : DriverEvent}

theorem fire_canon_identity (h : x.fire e = some y) :
    y.machine.canon = x.machine.canon ∧ y.machine.identity = x.machine.identity := by
  cases e with
  | callRun => obtain ⟨-, rfl⟩ := fire_callRun.1 h; simp
  | engineStep => obtain ⟨-, -, t, ht, rfl⟩ := fire_engineStep.1 h; exact step_canon_identity ht
  | returnRun => obtain ⟨-, -, rfl⟩ := fire_returnRun.1 h; simp
  | pushInput v => rw [fire_pushInput] at h; subst h; simp
  | reset => obtain ⟨-, rfl⟩ := fire_reset.1 h; simp
  | peek => rw [fire_peek] at h; subst h; exact ⟨rfl, rfl⟩

theorem fire_out_prefix (h : x.fire e = some y) (he : e ≠ .reset) : x.machine.out <+: y.machine.out := by
  cases e with
  | callRun => obtain ⟨-, rfl⟩ := fire_callRun.1 h; simp
  | engineStep => obtain ⟨-, -, t, ht, rfl⟩ := fire_engineStep.1 h; exact step_out_prefix ht
  | returnRun => obtain ⟨-, -, rfl⟩ := fire_returnRun.1 h; simp
  | pushInput v => rw [fire_pushInput] at h; subst h; simp
  | reset => exact absurd rfl he
  | peek => rw [fire_peek] at h; subst h; exact List.prefix_rfl

/-- R31, R197: a push lengthens the queue at its end, and what leaves it leaves at its front. -/
theorem fire_inq_suffix (h : x.fire e = some y) (he : e ≠ .reset) :
    y.machine.inq <:+ x.machine.inq ++ e.pushed.toList := by
  cases e with
  | callRun => obtain ⟨-, rfl⟩ := fire_callRun.1 h; simp [DriverEvent.pushed]
  | engineStep =>
    obtain ⟨-, -, t, ht, rfl⟩ := fire_engineStep.1 h
    simpa [DriverEvent.pushed] using step_inq_suffix ht
  | returnRun => obtain ⟨-, -, rfl⟩ := fire_returnRun.1 h; simp [DriverEvent.pushed]
  | pushInput v => rw [fire_pushInput] at h; subst h; simp [DriverEvent.pushed]
  | reset => exact absurd rfl he
  | peek => rw [fire_peek] at h; subst h; simp [DriverEvent.pushed]

end

/-! ## Histories -/

/-- What every event of a history keeps, the history keeps. -/
theorem fireAll_keeps {P : Session → Prop} {es : List DriverEvent} {x y : Session}
    (hkeep : ∀ e ∈ es, ∀ z w : Session, P z → z.fire e = some w → P w) (hx : P x)
    (h : Session.fireAll es x = some y) : P y := by
  induction es generalizing x with
  | nil => rw [fireAll_nil] at h; exact h ▸ hx
  | cons e es ih =>
    obtain ⟨z, hz, hes⟩ := fireAll_cons.1 h
    exact ih (fun e' he' => hkeep e' (List.mem_cons_of_mem e he')) (hkeep e List.mem_cons_self x z hx hz) hes

/-- Settles O43: construction gives a sound and settled machine, and every event keeps it so. -/
theorem everyReachableStateIsSound : Obligations.EveryReachableStateIsSound := by
  intro image identity s es x hs hx
  have hstart : Session.Settled ⟨s, false⟩ := by
    obtain ⟨-, rfl⟩ := newMachine_eq_some.1 hs
    exact fun _ => rfl
  exact fireAll_keeps (P := fun z => z.machine.Inv ∧ z.Settled)
    (fun _ _ _ _ hz hw => ⟨hz.1.fire hw, hz.2.fire hw⟩) ⟨.newMachine hs, hstart⟩ hx

/-- Settles O46: no event changes the canonical image or the label. -/
theorem canonicalImageNeverChanges : Obligations.CanonicalImageNeverChanges := by
  intro es x y h
  refine fireAll_keeps (P := fun z =>
    z.machine.canon = x.machine.canon ∧ z.machine.identity = x.machine.identity) ?_ ⟨rfl, rfl⟩ h
  intro e _ z w hz hw
  obtain ⟨hcanon, hidentity⟩ := fire_canon_identity hw
  exact ⟨hcanon.trans hz.1, hidentity.trans hz.2⟩

/-- Settles O48: each event but `reset` only appends to the output. -/
theorem outputOnlyGrowsUntilReset : Obligations.OutputOnlyGrowsUntilReset := by
  intro es x y hes h
  obtain ⟨new, hnew⟩ : x.machine.out <+: y.machine.out :=
    fireAll_keeps (P := fun z => x.machine.out <+: z.machine.out)
      (fun _ he _ _ hz hw => hz.trans (fire_out_prefix hw (ne_of_mem_of_not_mem he hes))) List.prefix_rfl h
  exact ⟨new, hnew.symm⟩

theorem filterMap_pushed_cons (e : DriverEvent) (es : List DriverEvent) :
    (e :: es).filterMap DriverEvent.pushed = e.pushed.toList ++ es.filterMap DriverEvent.pushed := by
  cases h : e.pushed <;> simp [h]

/-- R31, R143: the queue after a history is an end of the queue before it with the values pushed behind. -/
theorem fireAll_inq_suffix {es : List DriverEvent} {x y : Session} (hes : .reset ∉ es)
    (h : Session.fireAll es x = some y) :
    y.machine.inq <:+ x.machine.inq ++ es.filterMap DriverEvent.pushed := by
  induction es generalizing x with
  | nil => rw [fireAll_nil] at h; subst h; simp
  | cons e es ih =>
    rw [List.mem_cons, not_or] at hes
    obtain ⟨z, hz, hrest⟩ := fireAll_cons.1 h
    obtain ⟨taken, htaken⟩ := fire_inq_suffix hz (Ne.symm hes.1)
    rw [filterMap_pushed_cons, ← List.append_assoc, ← htaken, List.append_assoc]
    exact (ih hes.2 hrest).trans (List.suffix_append _ _)

/-- Settles O49, by induction on the history. -/
theorem inputIsConsumedInOrder : Obligations.InputIsConsumedInOrder := by
  intro es x y hes h
  obtain ⟨taken, htaken⟩ := fireAll_inq_suffix hes h
  exact ⟨taken, htaken.symm⟩

end Sys2Proof.Machine
end

section
/-! SUPPORT. The Memory Store: what a run of writes leaves at each address, and the sign check of R50. -/

namespace Sys2Proof.Machine

namespace Memory

/-- R55: after a list of writes an address holds the last word written to it, or what it held before. -/
theorem read_foldl_write (writes : List (Addr × Word)) (m : Memory) (a : Addr) :
    (writes.foldl (fun m c => m.write c.1 c.2) m).read a =
      ((writes.reverse.find? (fun c => decide (c.1 = a))).map Prod.snd).getD (m.read a) := by
  induction writes using List.reverseRecOn with
  | nil => rfl
  | append_singleton writes c ih =>
    rw [List.foldl_concat, read_write, ih, List.reverse_concat, List.find?_cons]
    by_cases hca : c.1 = a
    · simp [hca]
    · simp [hca, Ne.symm hca]

/-- R250: writing to the memory of an image gives the memory of a longer list. -/
theorem foldl_write_ofImage (image writes : List (Addr × Word)) :
    writes.foldl (fun m c => m.write c.1 c.2) (ofImage image) = ofImage (image ++ writes) :=
  List.foldl_append.symm

theorem readAt_of_neg (m : Memory) {addr : Int} (h : addr < 0) : m.readAt addr = .error ⟨addr, .read⟩ :=
  if_pos h

theorem readAt_of_nonneg (m : Memory) {addr : Int} (h : 0 ≤ addr) : m.readAt addr = .ok (m.read addr.toNat) :=
  if_neg (not_lt.2 h)

theorem writeAt_of_neg (m : Memory) {addr : Int} (v : Word) (h : addr < 0) :
    m.writeAt addr v = .error ⟨addr, .write⟩ :=
  if_pos h

theorem writeAt_of_nonneg (m : Memory) {addr : Int} (v : Word) (h : 0 ≤ addr) :
    m.writeAt addr v = .ok (m.write addr.toNat v) :=
  if_neg (not_lt.2 h)

theorem read_write_self (m : Memory) (a : Addr) (v : Word) : (m.write a v).read a = v := by
  rw [read_write, if_pos rfl]

theorem read_write_of_ne (m : Memory) {a b : Addr} (v : Word) (h : b ≠ a) : (m.write a v).read b = m.read b := by
  rw [read_write, if_neg h]

end Memory

/-- Settles O14: the image and the writes are one list of writes to the empty memory, by induction on that list. -/
theorem readReturnsTheLatestWrite : Obligations.ReadReturnsTheLatestWrite := by
  refine ⟨Memory.read_write_self, fun m _ _ v h => m.read_write_of_ne v h,
    fun m a v w => (m.write a v).read_write_self a w, fun image writes a => ?_⟩
  rw [Memory.foldl_write_ofImage]
  exact Memory.read_foldl_write (image ++ writes) [] a

/-- Settles O15: the two operations on each side of the sign check. -/
theorem memoryStoreContract : Obligations.MemoryStoreContract := fun m addr v =>
  ⟨fun h => ⟨m.readAt_of_neg h, m.writeAt_of_neg v h⟩,
    fun h => ⟨m.readAt_of_nonneg h, m.write addr.toNat v, m.writeAt_of_nonneg v h,
      m.read_write_self addr.toNat v, fun _ hb => m.read_write_of_ne v hb⟩⟩

end Sys2Proof.Machine
end

section
/-! SUPPORT. The completion of the storing instructions, and what the next fetch sees. -/

namespace Sys2Proof.Machine

variable {s : State} {a b dest : Operand} {x y v : Word} {d : Addr}

theorem wordAt_fetchWords (s : State) {k : Nat} (hk : k < 4) :
    wordAt s.fetchWords k = s.mem.read (s.ip + k) := by
  interval_cases k <;> rfl

theorem execRRW_of_resolved {f : Word → Word → Word} (ha : readValue s 1 a = .ok x)
    (hb : readValue s 2 b = .ok y) (hd : writeAddr s 3 dest = .ok d) :
    execRRW f a b dest s = .next ((s.store d (f x y)).advance 4) := by
  rw [execRRW, resolveRRW_ok_iff.2 ⟨ha, hb, hd⟩]
  rfl

theorem execInput_of_cons {rest : List Word} (hd : writeAddr s 1 dest = .ok d) (hq : s.inq = v :: rest) :
    execInput dest s = .next (((s.setInq rest).store d v).advance 2) := by
  rw [execInput, resolveW_ok_iff.2 hd, hq]
  rfl

theorem truthWord_decide (p : Prop) [Decidable p] : truthWord (decide p) = if p then 1 else 0 := by
  simp [truthWord]

/-- R130, R131, R160, R161: each instruction of the format `RRW` stores its result and advances by 4. -/
theorem exec_of_resolved {i : Instr} (ha : readValue s 1 a = .ok x) (hb : readValue s 2 b = .ok y)
    (hd : writeAddr s 3 dest = .ok d)
    (hi : i = .add a b dest ∧ v = x + y ∨ i = .mul a b dest ∧ v = x * y ∨
      i = .lessThan a b dest ∧ v = (if x < y then 1 else 0) ∨
      i = .equals a b dest ∧ v = (if x = y then 1 else 0)) :
    exec i s = .next ((s.store d v).advance 4) := by
  obtain ⟨rfl, rfl⟩ | ⟨rfl, rfl⟩ | ⟨rfl, rfl⟩ | ⟨rfl, rfl⟩ := hi
  · exact execRRW_of_resolved ha hb hd
  · exact execRRW_of_resolved ha hb hd
  · rw [← truthWord_decide]
    exact execRRW_of_resolved (f := fun x y => truthWord (decide (x < y))) ha hb hd
  · rw [← truthWord_decide]
    exact execRRW_of_resolved (f := fun x y => truthWord (decide (x = y))) ha hb hd

/-- R64: the words fetched after a store and an advance are those of the memory just written. -/
theorem wordAt_fetchWords_store_advance (s : State) (d : Addr) (v : Word) (n : Nat) {k : Nat} (hk : k < 4) :
    wordAt ((s.store d v).advance n).fetchWords k =
      if s.ip + n + k = d then v else s.mem.read (s.ip + n + k) := by
  rw [wordAt_fetchWords _ hk]
  exact Memory.read_write s.mem d _ v

/-- Settles O27: a storing instruction whose operands resolve writes one word and advances, and the fetch reads that
memory. -/
theorem storesAreSeenByTheNextFetch : Obligations.StoresAreSeenByTheNextFetch := by
  intro s d v k hk
  constructor
  · intro a b dest x y i ha hb hd hi
    exact ⟨_, exec_of_resolved ha hb hd hi, rfl, wordAt_fetchWords_store_advance s d v 4 hk⟩
  · intro dest rest hd hq
    exact ⟨_, execInput_of_cons hd hq, rfl, wordAt_fetchWords_store_advance (s.setInq rest) d v 2 hk⟩

end Sys2Proof.Machine
end

section
/-! SUPPORT. The order and the number of the memory accesses of a step (R65). -/

namespace Sys2Proof.Machine

/-- A list of accesses that makes at most `n` reads and then at most one store. -/
inductive ReadsThenStore : Nat → List MemAccess → Prop where
  | done (n : Nat) : ReadsThenStore n []
  | store (n : Nat) (d : Addr) : ReadsThenStore n [.store d]
  | read {n : Nat} {l : List MemAccess} {x : MemAccess} {a : Addr} (hx : x.readAddr = some a)
      (h : ReadsThenStore n l) : ReadsThenStore (n + 1) (x :: l)

namespace ReadsThenStore

variable {n : Nat} {l : List MemAccess}

theorem mono (h : ReadsThenStore n l) {k : Nat} (hk : n ≤ k) : ReadsThenStore k l := by
  induction h generalizing k with
  | done => exact .done k
  | store _ d => exact .store k d
  | read hx _ ih =>
    obtain ⟨k, rfl⟩ := Nat.exists_eq_add_of_le' (Nat.one_le_of_lt hk)
    exact .read hx (ih (Nat.le_of_succ_le_succ hk))

theorem length_reads_le (h : ReadsThenStore n l) : (l.filterMap MemAccess.readAddr).length ≤ n := by
  induction h with
  | done => exact Nat.zero_le _
  | store => exact Nat.zero_le _
  | read hx _ ih => simpa [List.filterMap_cons, hx] using ih

theorem store_is_last (h : ReadsThenStore n l) {j : Nat} {d : Addr} (hj : l[j]? = some (.store d)) :
    j + 1 = l.length := by
  induction h generalizing j with
  | done => simp at hj
  | store => cases j <;> simp_all
  | read hx _ ih =>
    cases j with
    | zero =>
      obtain rfl : _ = MemAccess.store d := by simpa using hj
      cases hx
    | succ j => simpa using ih hj

/-! ## The accesses of each format -/

variable {s : State}

theorem operandReads_append (h : ReadsThenStore n l) (k : Nat) (o : Operand) :
    ReadsThenStore (n + 2) (operandReads s k o ++ l) := by
  unfold operandReads
  split
  · exact .read rfl (h.mono (Nat.le_succ n))
  · split
    · exact .read rfl (h.mono (Nat.le_succ n))
    · exact .read rfl (.read rfl h)

theorem pairReads_append (h : ReadsThenStore n l) (a b : Operand) :
    ReadsThenStore (n + 4) (pairReads s a b ++ l) := by
  rw [pairReads, List.append_assoc]
  refine operandReads_append (n := n + 2) ?_ 1 a
  split
  · exact h.operandReads_append 2 b
  · exact h.mono (Nat.le_add_right n 2)

theorem of_destAccesses (k : Nat) (dest : Operand) (stores : Bool) :
    ReadsThenStore 1 (destAccesses s k dest stores) := by
  refine .read rfl ?_
  split
  · split
    · exact .store 0 _
    · exact .done 0
  · exact .done 0

theorem of_tripleAccesses (a b dest : Operand) : ReadsThenStore 5 (tripleAccesses s a b dest) := by
  unfold tripleAccesses
  split
  · exact .done 5
  · refine pairReads_append (n := 1) ?_ a b
    split
    · exact .of_destAccesses 3 dest true
    · exact .done 1

theorem of_operandReads (k : Nat) (o : Operand) : ReadsThenStore 2 (operandReads s k o) := by
  simpa using (ReadsThenStore.done 0).operandReads_append (s := s) k o

theorem of_pairReads (a b : Operand) : ReadsThenStore 4 (pairReads s a b) := by
  simpa using (ReadsThenStore.done 0).pairReads_append (s := s) a b

/-- R115: after the instruction word an instruction reads at most five words, and stores at most once, last. -/
theorem of_instrAccesses (i : Instr) : ReadsThenStore 5 (instrAccesses i s) := by
  cases i with
  | add a b dest => exact .of_tripleAccesses a b dest
  | mul a b dest => exact .of_tripleAccesses a b dest
  | lessThan a b dest => exact .of_tripleAccesses a b dest
  | equals a b dest => exact .of_tripleAccesses a b dest
  | input dest =>
    rw [instrAccesses]
    split
    · exact .done 5
    · exact (ReadsThenStore.of_destAccesses 1 dest _).mono (by decide)
  | output a => exact (ReadsThenStore.of_operandReads 1 a).mono (by decide)
  | adjustRelativeBase a => exact (ReadsThenStore.of_operandReads 1 a).mono (by decide)
  | jumpIfTrue a b => exact (ReadsThenStore.of_pairReads a b).mono (by decide)
  | jumpIfFalse a b => exact (ReadsThenStore.of_pairReads a b).mono (by decide)
  | halt => exact .done 5

theorem of_stepAccesses (s : State) : ReadsThenStore 6 (stepAccesses s) := by
  refine .read rfl ?_
  split
  · exact .of_instrAccesses _
  · exact .done 5

end ReadsThenStore

/-- Settles O40: the accesses of a step are the instruction word's, at most five more reads, and then at most one
store. -/
theorem stepAccessesAreBounded : Obligations.StepAccessesAreBounded := fun s =>
  ⟨(ReadsThenStore.of_stepAccesses s).length_reads_le, rfl,
    fun _ _ hj => (ReadsThenStore.of_stepAccesses s).store_is_last hj⟩

end Sys2Proof.Machine
end

section
/-! SUPPORT. The decoder looks at parameter words only to copy them: words with the same instruction word decode alike up
to those copies. -/

namespace Sys2Proof

/-- The operand with another parameter word. -/
def Operand.withWord (o : Operand) (p : Word) : Operand := { o with word := p }

/-- The instruction with other parameter words. -/
def Instr.withWords (p1 p2 p3 : Word) : Instr → Instr
  | .add a b dest => .add (a.withWord p1) (b.withWord p2) (dest.withWord p3)
  | .mul a b dest => .mul (a.withWord p1) (b.withWord p2) (dest.withWord p3)
  | .input dest => .input (dest.withWord p1)
  | .output a => .output (a.withWord p1)
  | .jumpIfTrue a b => .jumpIfTrue (a.withWord p1) (b.withWord p2)
  | .jumpIfFalse a b => .jumpIfFalse (a.withWord p1) (b.withWord p2)
  | .lessThan a b dest => .lessThan (a.withWord p1) (b.withWord p2) (dest.withWord p3)
  | .equals a b dest => .equals (a.withWord p1) (b.withWord p2) (dest.withWord p3)
  | .adjustRelativeBase a => .adjustRelativeBase (a.withWord p1)
  | .halt => .halt

section
variable {w : Nat} {p1 p2 p3 q1 q2 q3 : Word}

theorem readOperand_withWord (w k : Nat) (p q : Word) :
    readOperand w k q = (readOperand w k p).map (·.withWord q) := by
  unfold readOperand; split <;> rfl

theorem writeOperand_withWord (w k : Nat) (p q : Word) :
    writeOperand w k q = (writeOperand w k p).map (·.withWord q) := by
  unfold writeOperand; split <;> rfl

theorem decodeR1_withWords {mk : Operand → Instr}
    (hmk : ∀ a, (mk a).withWords q1 q2 q3 = mk (a.withWord q1)) :
    decodeR1 mk w q1 = (decodeR1 mk w p1).map (Instr.withWords q1 q2 q3) := by
  unfold decodeR1
  rw [readOperand_withWord w 1 p1]
  cases readOperand w 1 p1 with
  | error e => rfl
  | ok a => exact congrArg Except.ok (hmk a).symm

theorem decodeW1_withWords {mk : Operand → Instr}
    (hmk : ∀ dest, (mk dest).withWords q1 q2 q3 = mk (dest.withWord q1)) :
    decodeW1 mk w q1 = (decodeW1 mk w p1).map (Instr.withWords q1 q2 q3) := by
  unfold decodeW1
  rw [writeOperand_withWord w 1 p1]
  cases writeOperand w 1 p1 with
  | error e => rfl
  | ok dest => exact congrArg Except.ok (hmk dest).symm

theorem decodeRR_withWords {mk : Operand → Operand → Instr}
    (hmk : ∀ a b, (mk a b).withWords q1 q2 q3 = mk (a.withWord q1) (b.withWord q2)) :
    decodeRR mk w q1 q2 = (decodeRR mk w p1 p2).map (Instr.withWords q1 q2 q3) := by
  unfold decodeRR
  rw [readOperand_withWord w 1 p1, readOperand_withWord w 2 p2]
  cases readOperand w 1 p1 with
  | error e => rfl
  | ok a =>
    cases readOperand w 2 p2 with
    | error e => rfl
    | ok b => exact congrArg Except.ok (hmk a b).symm

theorem decodeRRW_withWords {mk : Operand → Operand → Operand → Instr}
    (hmk : ∀ a b dest, (mk a b dest).withWords q1 q2 q3 = mk (a.withWord q1) (b.withWord q2) (dest.withWord q3)) :
    decodeRRW mk w q1 q2 q3 = (decodeRRW mk w p1 p2 p3).map (Instr.withWords q1 q2 q3) := by
  unfold decodeRRW
  rw [readOperand_withWord w 1 p1, readOperand_withWord w 2 p2, writeOperand_withWord w 3 p3]
  cases readOperand w 1 p1 with
  | error e => rfl
  | ok a =>
    cases readOperand w 2 p2 with
    | error e => rfl
    | ok b =>
      cases writeOperand w 3 p3 with
      | error e => rfl
      | ok dest => exact congrArg Except.ok (hmk a b dest).symm

theorem decodeFields_withWords (w : Nat) (p1 p2 p3 q1 q2 q3 : Word) :
    decodeFields w q1 q2 q3 = (decodeFields w p1 p2 p3).map (Instr.withWords q1 q2 q3) := by
  unfold decodeFields
  split
  case h_1 => exact decodeRRW_withWords fun _ _ _ => rfl
  case h_2 => exact decodeRRW_withWords fun _ _ _ => rfl
  case h_3 => exact decodeW1_withWords fun _ => rfl
  case h_4 => exact decodeR1_withWords fun _ => rfl
  case h_5 => exact decodeRR_withWords fun _ _ => rfl
  case h_6 => exact decodeRR_withWords fun _ _ => rfl
  case h_7 => exact decodeRRW_withWords fun _ _ _ => rfl
  case h_8 => exact decodeRRW_withWords fun _ _ _ => rfl
  case h_9 => exact decodeR1_withWords fun _ => rfl
  case h_10 => rfl
  case h_11 => rfl

end

/-- R104, R107: the answer of the decode phase depends on the parameter words only where it copies them. -/
theorem decode_withWords {ws ws' : List Word} (h : wordAt ws' 0 = wordAt ws 0) :
    decode ws' = (decode ws).map (Instr.withWords (wordAt ws' 1) (wordAt ws' 2) (wordAt ws' 3)) := by
  unfold decode
  rw [h]
  split
  · rfl
  · exact decodeFields_withWords ..

end Sys2Proof
end

section
/-! SUPPORT. Two machines that differ in memory, but not at the addresses a step reads, take the same step (R65). -/

namespace Sys2Proof.Machine

/-- The machine with another memory. -/
def State.withMem (s : State) (m : Memory) : State := { s with mem := m }

@[simp] theorem State.withMem_mem (s : State) (m : Memory) : (s.withMem m).mem = m := rfl
@[simp] theorem State.withMem_ip (s : State) (m : Memory) : (s.withMem m).ip = s.ip := rfl
@[simp] theorem State.withMem_rb (s : State) (m : Memory) : (s.withMem m).rb = s.rb := rfl
@[simp] theorem State.withMem_inq (s : State) (m : Memory) : (s.withMem m).inq = s.inq := rfl

/-- Parameter `k` of the instruction at `ip`, with its parameter word as memory holds it (R107). -/
def refetch (s : State) (k : Nat) (o : Operand) : Operand := o.withWord (s.mem.read (s.ip + k))

@[simp] theorem refetch_mode (s : State) (k : Nat) (o : Operand) : (refetch s k o).mode = o.mode := rfl

/-! ## Agreement on a list of accesses -/

/-- The memory `m` holds what `s` holds at every address the list reads. -/
def Agree (s : State) (m : Memory) (l : List MemAccess) : Prop :=
  ∀ x ∈ l, ∀ a, x.readAddr = some a → m.read a = s.mem.read a

section
variable {s : State} {m : Memory} {l l' : List MemAccess} {a b dest o : Operand} {k : Nat}

theorem Agree.mono (h : Agree s m l') (hl : l ⊆ l') : Agree s m l := fun x hx => h x (hl hx)

theorem agree_append : Agree s m (l ++ l') ↔ Agree s m l ∧ Agree s m l' := List.forall_mem_append

theorem Agree.of_stepReads (h : ∀ a ∈ stepReads s, m.read a = s.mem.read a) : Agree s m (stepAccesses s) :=
  fun x hx a ha => h a (List.mem_filterMap.2 ⟨x, hx, ha⟩)

theorem agree_parameter (h : Agree s m (.parameter k (s.ip + k) :: l)) :
    m.read (s.ip + k) = s.mem.read (s.ip + k) :=
  h _ List.mem_cons_self _ rfl

/-- Where the parameter word agrees, both machines fetch the same operand. -/
theorem refetch_withMem (h : Agree s m (.parameter k (s.ip + k) :: l)) (o : Operand) :
    refetch (s.withMem m) k o = refetch s k o :=
  congrArg o.withWord (agree_parameter h)

/-! ## Resolution under agreement -/

theorem readValue_withMem (h : Agree s m (operandReads s k o)) :
    readValue (s.withMem m) k o = readValue s k o := by
  have haddr : operandAddress (s.withMem m) o = operandAddress s o := rfl
  unfold readValue
  rw [haddr]
  cases ho : operandAddress s o with
  | none => rfl
  | some n =>
    by_cases hn : n < 0
    · simp [Memory.readAt_of_neg _ hn]
    · have hread : m.read n.toNat = s.mem.read n.toNat :=
        h (.operand k n.toNat) (by simp [operandReads, ho, hn]) _ rfl
      simp [Memory.readAt_of_nonneg _ (not_lt.1 hn), hread]

theorem readValue_refetch (ho : refetch s k o = o) (h : Agree s m (operandReads s k o)) :
    readValue (s.withMem m) k (refetch (s.withMem m) k o) = readValue s k o := by
  rw [refetch_withMem h, ho, readValue_withMem h]

theorem writeAddr_refetch (ho : refetch s k o = o) {stores : Bool} (h : Agree s m (destAccesses s k o stores)) :
    writeAddr (s.withMem m) k (refetch (s.withMem m) k o) = writeAddr s k o := by
  rw [refetch_withMem h, ho, writeAddr_congr (s.withMem_rb m)]

/-- R112: a fault of the first operand ends the list, and the resolution too. -/
theorem resolveRR_refetch (ha : refetch s 1 a = a) (hb : refetch s 2 b = b) (h : Agree s m (pairReads s a b)) :
    resolveRR (s.withMem m) (refetch (s.withMem m) 1 a) (refetch (s.withMem m) 2 b) = resolveRR s a b := by
  obtain ⟨h1, h2⟩ := agree_append.1 h
  unfold resolveRR
  rw [readValue_refetch ha h1]
  cases hx : readValue s 1 a with
  | error c => rfl
  | ok x => rw [readValue_refetch hb (by simpa [hx, resolved] using h2)]

theorem resolveRRW_of_writable (h : dest.mode ≠ .immediate) :
    resolveRRW s a b dest =
      resolveRR s a b >>= fun v => (writeAddr s 3 dest).map fun d => (v.1, v.2, d) := by
  unfold resolveRRW resolveRR
  rw [checkDest_of_writable h]
  cases readValue s 1 a with
  | error c => rfl
  | ok x => cases readValue s 2 b <;> rfl

theorem resolveRRW_of_immediate (h : dest.mode = .immediate) :
    resolveRRW s a b dest = .error (.invalidOperand 3 1 .immediateWrite) := by
  rw [resolveRRW, checkDest_of_immediate h]
  rfl

theorem resolveRRW_refetch (ha : refetch s 1 a = a) (hb : refetch s 2 b = b) (hd : refetch s 3 dest = dest)
    (h : Agree s m (tripleAccesses s a b dest)) :
    resolveRRW (s.withMem m) (refetch (s.withMem m) 1 a) (refetch (s.withMem m) 2 b)
      (refetch (s.withMem m) 3 dest) = resolveRRW s a b dest := by
  by_cases hm : dest.mode = .immediate
  · rw [resolveRRW_of_immediate hm, resolveRRW_of_immediate (by simpa using hm)]
  · rw [tripleAccesses, if_neg hm, agree_append] at h
    obtain ⟨hpair, hdest⟩ := h
    rw [resolveRRW_of_writable hm, resolveRRW_of_writable (by simpa using hm), resolveRR_refetch ha hb hpair]
    cases hr : resolveRR s a b with
    | error c => rfl
    | ok v => rw [writeAddr_refetch hd (by simpa [hr, resolved] using hdest)]

theorem resolveW_of_writable (h : dest.mode ≠ .immediate) : resolveW s dest = writeAddr s 1 dest := by
  rw [resolveW, checkDest_of_writable h]
  rfl

theorem resolveW_of_immediate (h : dest.mode = .immediate) :
    resolveW s dest = .error (.invalidOperand 1 1 .immediateWrite) := by
  rw [resolveW, checkDest_of_immediate h]
  rfl

theorem resolveW_refetch (hd : refetch s 1 dest = dest) (h : Agree s m (instrAccesses (.input dest) s)) :
    resolveW (s.withMem m) (refetch (s.withMem m) 1 dest) = resolveW s dest := by
  by_cases hm : dest.mode = .immediate
  · rw [resolveW_of_immediate hm, resolveW_of_immediate (by simpa using hm)]
  · rw [instrAccesses, if_neg hm] at h
    rw [resolveW_of_writable hm, resolveW_of_writable (by simpa using hm), writeAddr_refetch hd h]

/-! ## The store of a format -/

theorem store_mem_destAccesses {d : Addr} (hd : writeAddr s k dest = .ok d) :
    .store d ∈ destAccesses s k dest true := by
  simp [destAccesses, hd]

theorem store_mem_tripleAccesses {x y : Word} {d : Addr} (hr : resolveRRW s a b dest = .ok (x, y, d)) :
    .store d ∈ tripleAccesses s a b dest := by
  obtain ⟨ha, hb, hd⟩ := resolveRRW_ok_iff.1 hr
  rw [tripleAccesses, if_neg (writeAddr_ok_mode hd), resolveRR_ok_iff.2 ⟨ha, hb⟩]
  exact List.mem_append_right _ (store_mem_destAccesses hd)

theorem store_mem_inputAccesses {d : Addr} (hr : resolveW s dest = .ok d) (hq : s.inq ≠ []) :
    .store d ∈ instrAccesses (.input dest) s := by
  have hd := resolveW_ok_iff.1 hr
  rw [instrAccesses, if_neg (writeAddr_ok_mode hd), decide_eq_true hq]
  exact store_mem_destAccesses hd

end

/-! ## The same result on two memories -/

/-- What the machine `s` and the machine with memory `m` in its place compute, if they do the same: the same fault, the same
change with both memories kept, or the same change with the same word stored at an address in the list. -/
inductive SameResult (s : State) (m : Memory) (l : List MemAccess) :
    Except FaultCause State → Except FaultCause State → Prop where
  | fault (c : FaultCause) : SameResult s m l (.error c) (.error c)
  | kept (t : State) (ht : t.mem = s.mem) : SameResult s m l (.ok t) (.ok (t.withMem m))
  | stored (t : State) (d : Addr) (v : Word) (hd : .store d ∈ l) (ht : t.mem = s.mem.write d v) :
      SameResult s m l (.ok t) (.ok (t.withMem (m.write d v)))

/-- The two machines answer next states that differ as `SameResult` says, in the words of the obligation. -/
def SameStep (s : State) (m : Memory) (l : List MemAccess) (r r' : Host.Outcome State Fault Refusal) : Prop :=
  ∀ t t', r = .next t → r' = .next t' → t' = t.withMem t'.mem ∧
    (t.mem = s.mem ∧ t'.mem = m ∨
      ∃ d v, MemAccess.store d ∈ l ∧ t.mem = s.mem.write d v ∧ t'.mem = m.write d v)

section
variable {s : State} {m : Memory} {l l' : List MemAccess} {a b dest : Operand}

theorem SameStep.mono {r r' : Host.Outcome State Fault Refusal} (h : SameStep s m l r r') (hl : l ⊆ l') :
    SameStep s m l' r r' := fun t t' ht ht' =>
  (h t t' ht ht').imp_right (Or.imp_right fun ⟨d, v, hd, hv⟩ => ⟨d, v, hl hd, hv⟩)

/-- R215: a fault records the word at `ip`, on which both memories agree. -/
theorem raise_withMem (hip : m.read s.ip = s.mem.read s.ip) (c : FaultCause) :
    (s.withMem m).raise c = (s.raise c).withMem m := by
  simp [State.raise, State.withMem, hip]

theorem SameResult.finish {r r' : Except FaultCause State} (hip : m.read s.ip = s.mem.read s.ip)
    (h : SameResult s m l r r') : SameStep s m l (finish s r) (finish (s.withMem m) r') := by
  cases h with
  | fault c =>
    rw [finish_error, finish_error, raise_withMem hip]
    rintro t t' ⟨⟩ ⟨⟩
    exact ⟨rfl, .inl ⟨rfl, rfl⟩⟩
  | kept u hu =>
    rintro t t' ⟨⟩ ⟨⟩
    exact ⟨rfl, .inl ⟨hu, rfl⟩⟩
  | stored u d v hd hu =>
    rintro t t' ⟨⟩ ⟨⟩
    exact ⟨rfl, .inr ⟨d, v, hd, hu, rfl⟩⟩

/-! ## The execute phases -/

theorem execRRW_sameStep (f : Word → Word → Word) (hip : m.read s.ip = s.mem.read s.ip)
    (ha : refetch s 1 a = a) (hb : refetch s 2 b = b) (hd : refetch s 3 dest = dest)
    (h : Agree s m (tripleAccesses s a b dest)) :
    SameStep s m (tripleAccesses s a b dest) (execRRW f a b dest s)
      (execRRW f (refetch (s.withMem m) 1 a) (refetch (s.withMem m) 2 b) (refetch (s.withMem m) 3 dest)
        (s.withMem m)) := by
  refine SameResult.finish hip ?_
  rw [resolveRRW_refetch ha hb hd h]
  cases hr : resolveRRW s a b dest with
  | error c => exact .fault c
  | ok v =>
    obtain ⟨x, y, d⟩ := v
    exact .stored ((s.store d (f x y)).advance 4) d (f x y) (store_mem_tripleAccesses hr) rfl

theorem execJump_sameStep (taken : Word → Bool) (hip : m.read s.ip = s.mem.read s.ip)
    (ha : refetch s 1 a = a) (hb : refetch s 2 b = b) (h : Agree s m (pairReads s a b)) :
    SameStep s m (pairReads s a b) (execJump taken a b s)
      (execJump taken (refetch (s.withMem m) 1 a) (refetch (s.withMem m) 2 b) (s.withMem m)) := by
  refine SameResult.finish hip ?_
  rw [resolveRR_refetch ha hb h]
  cases resolveRR s a b with
  | error c => exact .fault c
  | ok v =>
    obtain ⟨x, y⟩ := v
    cases ht : taken x with
    | false =>
      simp only [bind, Except.bind, ht, Bool.false_eq_true, if_false]
      exact .kept (s.advance 3) rfl
    | true =>
      simp only [bind, Except.bind, ht, if_true, jumpTo, refetch_mode]
      cases checkedAddress 2 b.mode .jump y with
      | error c => exact .fault c
      | ok n => exact .kept (s.setIp n) rfl

theorem execInput_sameStep (hip : m.read s.ip = s.mem.read s.ip) (hd : refetch s 1 dest = dest)
    (h : Agree s m (instrAccesses (.input dest) s)) :
    SameStep s m (instrAccesses (.input dest) s) (execInput dest s)
      (execInput (refetch (s.withMem m) 1 dest) (s.withMem m)) := by
  refine SameResult.finish hip ?_
  rw [resolveW_refetch hd h, State.withMem_inq]
  cases hr : resolveW s dest with
  | error c => exact .fault c
  | ok d =>
    cases hq : s.inq with
    | nil => exact .kept s.suspend rfl
    | cons x rest =>
      exact .stored (((s.setInq rest).store d x).advance 2) d x (store_mem_inputAccesses hr (by simp [hq])) rfl

theorem execOutput_sameStep (hip : m.read s.ip = s.mem.read s.ip) (ha : refetch s 1 a = a)
    (h : Agree s m (operandReads s 1 a)) :
    SameStep s m (operandReads s 1 a) (execOutput a s)
      (execOutput (refetch (s.withMem m) 1 a) (s.withMem m)) := by
  refine SameResult.finish hip ?_
  rw [readValue_refetch ha h]
  cases readValue s 1 a with
  | error c => exact .fault c
  | ok x => exact .kept ((s.emit x).advance 2) rfl

theorem execAdjustRelativeBase_sameStep (hip : m.read s.ip = s.mem.read s.ip) (ha : refetch s 1 a = a)
    (h : Agree s m (operandReads s 1 a)) :
    SameStep s m (operandReads s 1 a) (execAdjustRelativeBase a s)
      (execAdjustRelativeBase (refetch (s.withMem m) 1 a) (s.withMem m)) := by
  refine SameResult.finish hip ?_
  rw [readValue_refetch ha h]
  cases readValue s 1 a with
  | error c => exact .fault c
  | ok x => exact .kept ((s.adjustBase x).advance 2) rfl

/-! ## The step -/

/-- The instruction with the parameter words that memory holds after `ip`. -/
def refetchInstr (s : State) (i : Instr) : Instr :=
  i.withWords (s.mem.read (s.ip + 1)) (s.mem.read (s.ip + 2)) (s.mem.read (s.ip + 3))

/-- A decoded instruction has the parameter words of memory. -/
theorem refetchInstr_of_decode {i : Instr} (h : decode s.fetchWords = .ok i) : refetchInstr s i = i := by
  have hself := decode_withWords (ws := s.fetchWords) (ws' := s.fetchWords) rfl
  rw [h] at hself
  exact (Except.ok.inj hself).symm

theorem decode_withMem (hip : m.read s.ip = s.mem.read s.ip) :
    decode (s.withMem m).fetchWords = (decode s.fetchWords).map (refetchInstr (s.withMem m)) :=
  decode_withWords hip

/-- R65: an instruction's execution depends on the words its accesses read alone. -/
theorem exec_sameStep {i : Instr} (hip : m.read s.ip = s.mem.read s.ip) (hi : refetchInstr s i = i)
    (h : Agree s m (instrAccesses i s)) :
    SameStep s m (instrAccesses i s) (exec i s) (exec (refetchInstr (s.withMem m) i) (s.withMem m)) := by
  cases i with
  | add a b dest =>
    obtain ⟨ha, hb, hd⟩ := Instr.add.inj hi
    exact execRRW_sameStep _ hip ha hb hd h
  | mul a b dest =>
    obtain ⟨ha, hb, hd⟩ := Instr.mul.inj hi
    exact execRRW_sameStep _ hip ha hb hd h
  | lessThan a b dest =>
    obtain ⟨ha, hb, hd⟩ := Instr.lessThan.inj hi
    exact execRRW_sameStep (fun x y => truthWord (decide (x < y))) hip ha hb hd h
  | equals a b dest =>
    obtain ⟨ha, hb, hd⟩ := Instr.equals.inj hi
    exact execRRW_sameStep (fun x y => truthWord (decide (x = y))) hip ha hb hd h
  | input dest => exact execInput_sameStep hip (Instr.input.inj hi) h
  | output a => exact execOutput_sameStep hip (Instr.output.inj hi) h
  | jumpIfTrue a b =>
    obtain ⟨ha, hb⟩ := Instr.jumpIfTrue.inj hi
    exact execJump_sameStep _ hip ha hb h
  | jumpIfFalse a b =>
    obtain ⟨ha, hb⟩ := Instr.jumpIfFalse.inj hi
    exact execJump_sameStep (fun x => !isNonZero x) hip ha hb h
  | adjustRelativeBase a => exact execAdjustRelativeBase_sameStep hip (Instr.adjustRelativeBase.inj hi) h
  | halt => exact SameResult.finish hip (.kept s.stop rfl)

theorem stepAccesses_of_decode {i : Instr} (h : decode s.fetchWords = .ok i) :
    stepAccesses s = .word s.ip :: instrAccesses i s := by
  rw [stepAccesses, h]

theorem step_sameStep (hs : s.state = .running) (h : Agree s m (stepAccesses s)) :
    SameStep s m (stepAccesses s) (step s) (step (s.withMem m)) := by
  have hip : m.read s.ip = s.mem.read s.ip := h (.word s.ip) List.mem_cons_self s.ip rfl
  rw [step_of_running hs, step_of_running (s := s.withMem m) hs, decode_withMem hip]
  cases hd : decode s.fetchWords with
  | error e => exact SameResult.finish hip (.fault (decodeCause e))
  | ok i =>
    have hsub : instrAccesses i s ⊆ stepAccesses s :=
      stepAccesses_of_decode hd ▸ List.subset_cons_self _ _
    exact (exec_sameStep hip (refetchInstr_of_decode hd) (h.mono hsub)).mono hsub

end

/-- Settles O39: where the two memories agree on the list, decoding and resolution agree, operand by operand as far as the
list goes, and the completed steps make the same change. -/
theorem stepReadsOnlyItsListedWords : Obligations.StepReadsOnlyItsListedWords :=
  fun _ t t' _ hs hm ht ht' => step_sameStep hs (.of_stepReads hm) t t' ht ht'

end Sys2Proof.Machine
end

section
/-! SUPPORT. What the decoder answers: the instruction a word decodes to, and the cause of every rejection. -/

namespace Sys2Proof.Machine

open Pseudocode (ParamKind paramKinds illegalMode)

variable {w k : Nat} {p p1 p2 p3 : Word} {o : Operand} {i : Instr} {ws : List Word} {kinds : List ParamKind}

/-! ## Lists by position -/

theorem forall_getElem?_cons {α : Type} {a : α} {l : List α} {P : Nat → α → Prop} :
    (∀ k x, (a :: l)[k]? = some x → P k x) ↔ P 0 a ∧ ∀ k x, l[k]? = some x → P (k + 1) x := by
  constructor
  · exact fun h => ⟨h 0 a rfl, fun k x hx => h (k + 1) x hx⟩
  · rintro ⟨h0, h⟩ (_ | k) x hx
    · cases hx; exact h0
    · exact h k x hx

theorem forall_getElem?_nil {α : Type} {P : Nat → α → Prop} : ∀ k x, ([] : List α)[k]? = some x → P k x :=
  fun _ _ h => by cases h

/-! ## The sign of the word, and the table of operation codes -/

theorem decode_of_neg (h : wordAt ws 0 < 0) : decode ws = .error .invalidOpcode := if_pos h

theorem decode_of_nonneg (h0 : 0 ≤ wordAt ws 0) :
    decode ws = decodeFields (wordAt ws 0).toNat (wordAt ws 1) (wordAt ws 2) (wordAt ws 3) :=
  if_neg (not_lt.2 h0)

theorem paramKinds_eq_none_iff {n : Nat} : paramKinds n = none ↔ n ∉ [1, 2, 3, 4, 5, 6, 7, 8, 9, 99] := by
  unfold paramKinds
  split <;> simp_all

theorem paramKinds_opcode (i : Instr) :
    ∃ kinds, paramKinds i.opcode = some kinds ∧ kinds.length = i.operands.length := by
  cases i <;> exact ⟨_, rfl, rfl⟩

/-! ## One parameter -/

theorem ofDigit_eq_some {n : Nat} {m : Mode} : Mode.ofDigit n = some m ↔ n = m.digit := by
  constructor
  · intro h
    match n, h with
    | 0, h => cases h; rfl
    | 1, h => cases h; rfl
    | 2, h => cases h; rfl
  · rintro rfl; cases m <;> rfl

theorem readOperand_ok_iff : readOperand w k p = .ok o ↔ mode w k = o.mode.digit ∧ p = o.word := by
  obtain ⟨m, q⟩ := o
  rw [← ofDigit_eq_some]
  unfold readOperand
  cases Mode.ofDigit (mode w k) <;> simp

theorem writeOperand_ok_iff :
    writeOperand w k p = .ok o ↔ o.writable = true ∧ mode w k = o.mode.digit ∧ p = o.word := by
  obtain ⟨m, q⟩ := o
  rw [← ofDigit_eq_some]
  unfold writeOperand
  rcases Mode.ofDigit (mode w k) with _ | (_ | _ | _) <;> cases m <;> simp [Operand.writable]

/-! ## The decoded instruction -/

/-- The operands `os` are what stands in the words: their modes in the digits of `w`, their parameter words in order
after the first word (R72, R77). -/
def Spells (w : Nat) (ws : List Word) (os : List Operand) : Prop :=
  ∀ k o, os[k]? = some o → mode w (k + 1) = o.mode.digit ∧ wordAt ws (k + 1) = o.word

theorem spells_one {a : Operand} :
    Spells w ws [a] ↔ mode w 1 = a.mode.digit ∧ wordAt ws 1 = a.word := by
  simp [Spells, forall_getElem?_cons]

theorem spells_pair {a b : Operand} :
    Spells w ws [a, b] ↔ (mode w 1 = a.mode.digit ∧ wordAt ws 1 = a.word) ∧
      mode w 2 = b.mode.digit ∧ wordAt ws 2 = b.word := by
  simp [Spells, forall_getElem?_cons]

theorem spells_triple {a b dest : Operand} :
    Spells w ws [a, b, dest] ↔ (mode w 1 = a.mode.digit ∧ wordAt ws 1 = a.word) ∧
      (mode w 2 = b.mode.digit ∧ wordAt ws 2 = b.word) ∧
      mode w 3 = dest.mode.digit ∧ wordAt ws 3 = dest.word := by
  simp [Spells, forall_getElem?_cons]

theorem decodeR1_ok_iff {mk : Operand → Instr} {a : Operand} (hmk : ∀ {a a'}, mk a = mk a' → a = a') :
    decodeR1 mk w (wordAt ws 1) = .ok (mk a) ↔ Spells w ws [a] := by
  rw [spells_one, ← readOperand_ok_iff]
  refine except_bind_ok_iff.trans ⟨?_, fun h => ⟨a, h, rfl⟩⟩
  rintro ⟨a', h, he⟩
  cases hmk (Except.ok.inj he); exact h

theorem decodeW1_ok_iff {mk : Operand → Instr} {dest : Operand} (hmk : ∀ {a a'}, mk a = mk a' → a = a') :
    decodeW1 mk w (wordAt ws 1) = .ok (mk dest) ↔ dest.writable = true ∧ Spells w ws [dest] := by
  rw [spells_one, ← writeOperand_ok_iff]
  refine except_bind_ok_iff.trans ⟨?_, fun h => ⟨dest, h, rfl⟩⟩
  rintro ⟨a', h, he⟩
  cases hmk (Except.ok.inj he); exact h

theorem decodeRR_ok_iff {mk : Operand → Operand → Instr} {a b : Operand}
    (hmk : ∀ {a b a' b'}, mk a b = mk a' b' → a = a' ∧ b = b') :
    decodeRR mk w (wordAt ws 1) (wordAt ws 2) = .ok (mk a b) ↔ Spells w ws [a, b] := by
  rw [spells_pair, ← readOperand_ok_iff, ← readOperand_ok_iff]
  unfold decodeRR
  simp only [except_bind_ok_iff]
  constructor
  · rintro ⟨a', ha, b', hb, he⟩
    obtain ⟨rfl, rfl⟩ := hmk (Except.ok.inj he)
    exact ⟨ha, hb⟩
  · exact fun ⟨ha, hb⟩ => ⟨a, ha, b, hb, rfl⟩

theorem decodeRRW_ok_iff {mk : Operand → Operand → Operand → Instr} {a b dest : Operand}
    (hmk : ∀ {a b dest a' b' dest'}, mk a b dest = mk a' b' dest' → a = a' ∧ b = b' ∧ dest = dest') :
    decodeRRW mk w (wordAt ws 1) (wordAt ws 2) (wordAt ws 3) = .ok (mk a b dest) ↔
      dest.writable = true ∧ Spells w ws [a, b, dest] := by
  rw [spells_triple, and_left_comm, and_left_comm (a := dest.writable = true), ← writeOperand_ok_iff,
    ← readOperand_ok_iff, ← readOperand_ok_iff]
  unfold decodeRRW
  simp only [except_bind_ok_iff]
  constructor
  · rintro ⟨a', ha, b', hb, dest', hd, he⟩
    obtain ⟨rfl, rfl, rfl⟩ := hmk (Except.ok.inj he)
    exact ⟨ha, hb, hd⟩
  · exact fun ⟨ha, hb, hd⟩ => ⟨a, ha, b, hb, dest, hd, rfl⟩

theorem decodeFields_ok_iff_of_opcode (ho : opcode w = i.opcode) :
    decodeFields w (wordAt ws 1) (wordAt ws 2) (wordAt ws 3) = .ok i ↔
      i.wellFormed = true ∧ Spells w ws i.operands := by
  unfold decodeFields
  rw [ho]
  cases i with
  | add a b dest => exact decodeRRW_ok_iff Instr.add.inj
  | mul a b dest => exact decodeRRW_ok_iff Instr.mul.inj
  | input dest => exact decodeW1_ok_iff Instr.input.inj
  | output a => exact (decodeR1_ok_iff Instr.output.inj).trans (and_iff_right rfl).symm
  | jumpIfTrue a b => exact (decodeRR_ok_iff Instr.jumpIfTrue.inj).trans (and_iff_right rfl).symm
  | jumpIfFalse a b => exact (decodeRR_ok_iff Instr.jumpIfFalse.inj).trans (and_iff_right rfl).symm
  | lessThan a b dest => exact decodeRRW_ok_iff Instr.lessThan.inj
  | equals a b dest => exact decodeRRW_ok_iff Instr.equals.inj
  | adjustRelativeBase a => exact (decodeR1_ok_iff Instr.adjustRelativeBase.inj).trans (and_iff_right rfl).symm
  | halt => exact iff_of_true rfl ⟨rfl, forall_getElem?_nil⟩

/-- What it is for words to decode to an instruction: the first word is not negative, has its operation code and spells its
operands with the words after it, and no write operand is immediate (R71 to R77, R80, R82). -/
theorem decode_ok_iff :
    decode ws = .ok i ↔ 0 ≤ wordAt ws 0 ∧ opcode (wordAt ws 0).toNat = i.opcode ∧ i.wellFormed = true ∧
      Spells (wordAt ws 0).toNat ws i.operands := by
  constructor
  · intro h
    obtain ⟨h0, ho⟩ := decode_opcode h
    rw [decode_of_nonneg h0, decodeFields_ok_iff_of_opcode ho] at h
    exact ⟨h0, ho, h⟩
  · rintro ⟨h0, ho, h⟩
    rw [decode_of_nonneg h0, decodeFields_ok_iff_of_opcode ho]
    exact h

/-! ## The cause of a rejection -/

/-- The fault a decode phase that answers `r` takes, if it takes one. -/
def rejection {α : Type} : Except DecodeError α → Option FaultCause
  | .ok _ => none
  | .error e => some (decodeCause e)

theorem rejection_eq_none {α : Type} {r : Except DecodeError α} : rejection r = none ↔ ∃ v, r = .ok v := by
  cases r <;> simp [rejection]

theorem decodeCause_injective : Function.Injective decodeCause := by
  rintro (_ | ⟨k, m, r⟩) (_ | ⟨k', m', r'⟩) h <;> cases h <;> rfl

theorem rejection_eq_some {α : Type} {r : Except DecodeError α} {e : DecodeError} :
    rejection r = some (decodeCause e) ↔ r = .error e := by
  cases r <;> simp [rejection, decodeCause_injective.eq_iff]

section
variable {α : Type} {f : Operand → Except DecodeError α}

theorem rejection_readOperand_bind (hf : ∀ o, rejection (f o) = illegalMode w (k + 1) kinds) :
    rejection (readOperand w k p >>= f) = illegalMode w k (.R :: kinds) := by
  unfold readOperand illegalMode
  match mode w k with
  | 0 => exact hf _
  | 1 => exact hf _
  | 2 => exact hf _
  | n + 3 => simp [Mode.ofDigit, Bind.bind, Except.bind, rejection, decodeCause]

theorem rejection_writeOperand_bind (hf : ∀ o, rejection (f o) = illegalMode w (k + 1) kinds) :
    rejection (writeOperand w k p >>= f) = illegalMode w k (.W :: kinds) := by
  unfold writeOperand illegalMode
  match mode w k with
  | 0 => exact hf _
  | 1 => rfl
  | 2 => exact hf _
  | n + 3 => simp [Mode.ofDigit, Bind.bind, Except.bind, rejection, decodeCause]

end

theorem rejection_decodeR1 {mk : Operand → Instr} : rejection (decodeR1 mk w p1) = illegalMode w 1 [.R] :=
  rejection_readOperand_bind fun _ => rfl

theorem rejection_decodeW1 {mk : Operand → Instr} : rejection (decodeW1 mk w p1) = illegalMode w 1 [.W] :=
  rejection_writeOperand_bind fun _ => rfl

theorem rejection_decodeRR {mk : Operand → Operand → Instr} :
    rejection (decodeRR mk w p1 p2) = illegalMode w 1 [.R, .R] :=
  rejection_readOperand_bind fun _ => rejection_readOperand_bind fun _ => rfl

theorem rejection_decodeRRW {mk : Operand → Operand → Operand → Instr} :
    rejection (decodeRRW mk w p1 p2 p3) = illegalMode w 1 [.R, .R, .W] :=
  rejection_readOperand_bind fun _ => rejection_readOperand_bind fun _ => rejection_writeOperand_bind fun _ => rfl

/-- R106: with an operation code of the table, the first illegal mode digit is the cause of the rejection. -/
theorem rejection_decodeFields (hk : paramKinds (opcode w) = some kinds) :
    rejection (decodeFields w p1 p2 p3) = illegalMode w 1 kinds := by
  unfold decodeFields
  split
  case h_1 ho => rw [ho] at hk; cases hk; exact rejection_decodeRRW
  case h_2 ho => rw [ho] at hk; cases hk; exact rejection_decodeRRW
  case h_3 ho => rw [ho] at hk; cases hk; exact rejection_decodeW1
  case h_4 ho => rw [ho] at hk; cases hk; exact rejection_decodeR1
  case h_5 ho => rw [ho] at hk; cases hk; exact rejection_decodeRR
  case h_6 ho => rw [ho] at hk; cases hk; exact rejection_decodeRR
  case h_7 ho => rw [ho] at hk; cases hk; exact rejection_decodeRRW
  case h_8 ho => rw [ho] at hk; cases hk; exact rejection_decodeRRW
  case h_9 ho => rw [ho] at hk; cases hk; exact rejection_decodeR1
  case h_10 ho => rw [ho] at hk; cases hk; rfl
  case h_11 =>
    have hnone : paramKinds (opcode w) = none := paramKinds_eq_none_iff.2 (by simp_all)
    cases hnone.symm.trans hk

theorem rejection_decode (h0 : 0 ≤ wordAt ws 0) (hk : paramKinds (opcode (wordAt ws 0).toNat) = some kinds) :
    rejection (decode ws) = illegalMode (wordAt ws 0).toNat 1 kinds := by
  rw [decode_of_nonneg h0]
  exact rejection_decodeFields hk

/-- R81: an operation code outside the table. -/
theorem decode_of_paramKinds_none (h0 : 0 ≤ wordAt ws 0) (hk : paramKinds (opcode (wordAt ws 0).toNat) = none) :
    decode ws = .error .invalidOpcode := by
  rw [decode_of_nonneg h0]
  unfold decodeFields
  split
  case h_11 => rfl
  all_goals next ho => rw [ho] at hk; cases hk

/-! ## Legal mode digits -/

/-- R82, R83: the mode digit `m` is legal for a parameter of this kind. -/
def LegalDigit (m : Nat) (kind : ParamKind) : Prop := m < 3 ∧ (kind = .W → m ≠ 1)

theorem illegalMode_cons_of_legal {kind : ParamKind} (h : LegalDigit (mode w k) kind) :
    illegalMode w k (kind :: kinds) = illegalMode w (k + 1) kinds := by
  obtain ⟨h3, h1⟩ := h
  rw [illegalMode, if_neg (not_le.2 h3), if_neg fun h => h1 h.1 h.2]

theorem illegalMode_cons_of_unknown {kind : ParamKind} (h : 3 ≤ mode w k) :
    illegalMode w k (kind :: kinds) = some (.invalidOperand k (mode w k) .unknownMode) := by
  rw [illegalMode, if_pos h]

theorem illegalMode_cons_of_immediateWrite (h : mode w k = 1) :
    illegalMode w k (.W :: kinds) = some (.invalidOperand k 1 .immediateWrite) := by
  rw [illegalMode, if_neg (by omega), if_pos ⟨rfl, h⟩]

theorem legalDigit_or {m : Nat} (kind : ParamKind) : LegalDigit m kind ∨ 3 ≤ m ∨ kind = .W ∧ m = 1 := by
  by_cases h3 : 3 ≤ m
  · exact .inr (.inl h3)
  · by_cases h1 : kind = .W ∧ m = 1
    · exact .inr (.inr h1)
    · exact .inl ⟨not_le.1 h3, fun hk hm => h1 ⟨hk, hm⟩⟩

theorem illegalMode_eq_none_iff :
    illegalMode w k kinds = none ↔ ∀ j kind, kinds[j]? = some kind → LegalDigit (mode w (k + j)) kind := by
  induction kinds generalizing k with
  | nil => exact iff_of_true rfl forall_getElem?_nil
  | cons kind kinds ih =>
    rw [forall_getElem?_cons (P := fun j kind => LegalDigit (mode w (k + j)) kind), Nat.add_zero]
    rcases legalDigit_or (m := mode w k) kind with h | h | ⟨rfl, h⟩
    · rw [illegalMode_cons_of_legal h, ih, and_iff_right h]
      simp only [Nat.add_assoc, Nat.add_comm 1]
    · rw [illegalMode_cons_of_unknown h]
      exact iff_of_false nofun fun h' => absurd h'.1.1 (not_lt.2 h)
    · rw [illegalMode_cons_of_immediateWrite h]
      exact iff_of_false nofun fun h' => h'.1.2 rfl h

/-- R106: legal parameters are passed over. -/
theorem illegalMode_eq_drop {j : Nat}
    (h : ∀ l kind, l < j → kinds[l]? = some kind → LegalDigit (mode w (k + l)) kind) :
    illegalMode w k kinds = illegalMode w (k + j) (kinds.drop j) := by
  induction j generalizing k kinds with
  | zero => rfl
  | succ j ih =>
    cases kinds with
    | nil => rfl
    | cons kind kinds =>
      have h0 : LegalDigit (mode w k) kind := h 0 kind (Nat.succ_pos j) rfl
      rw [illegalMode_cons_of_legal h0, List.drop_succ_cons, Nat.add_left_comm, Nat.add_comm j]
      exact ih fun l kind' hl hk => Nat.add_right_comm k 1 l ▸ h (l + 1) kind' (Nat.succ_lt_succ hl) hk

theorem illegalMode_ne_invalidOpcode : illegalMode w k kinds ≠ some .invalidOpcode := by
  induction kinds generalizing k with
  | nil => nofun
  | cons kind kinds ih =>
    rcases legalDigit_or (m := mode w k) kind with h | h | ⟨rfl, h⟩
    · rw [illegalMode_cons_of_legal h]; exact ih
    · rw [illegalMode_cons_of_unknown h]; nofun
    · rw [illegalMode_cons_of_immediateWrite h]; nofun

theorem illegalMode_congr {w' : Nat} (h : ∀ j, j < kinds.length → mode w' (k + j) = mode w (k + j)) :
    illegalMode w' k kinds = illegalMode w k kinds := by
  induction kinds generalizing k with
  | nil => rfl
  | cons kind kinds ih =>
    have h0 : mode w' k = mode w k := h 0 (Nat.succ_pos _)
    have hs : illegalMode w' (k + 1) kinds = illegalMode w (k + 1) kinds := ih fun j hj => by
      simpa [Nat.add_assoc, Nat.add_comm 1] using h (j + 1) (Nat.succ_lt_succ hj)
    rw [illegalMode, illegalMode, h0, hs]

end Sys2Proof.Machine
end

section
/-! SUPPORT. The statements about encoding and decoding (30_encoding.md). -/

namespace Sys2Proof.Machine

open Pseudocode (ParamKind paramKinds illegalMode)

variable {w k : Nat} {o : Operand} {i : Instr} {ws : List Word} {kinds : List ParamKind}

/-! ## The words of an encoded instruction -/

theorem encodedFields (i : Instr) : Laws.EncodedFields.Statement i := by
  cases i with
  | add a b dest => exact Laws.EncodedFields.add a b dest
  | mul a b dest => exact Laws.EncodedFields.mul a b dest
  | input dest => exact Laws.EncodedFields.input dest
  | output a => exact Laws.EncodedFields.output a
  | jumpIfTrue a b => exact Laws.EncodedFields.jumpIfTrue a b
  | jumpIfFalse a b => exact Laws.EncodedFields.jumpIfFalse a b
  | lessThan a b dest => exact Laws.EncodedFields.lessThan a b dest
  | equals a b dest => exact Laws.EncodedFields.equals a b dest
  | adjustRelativeBase a => exact Laws.EncodedFields.adjustRelativeBase a
  | halt => exact Laws.EncodedFields.halt

theorem encode_spells (i : Instr) (rest : List Word) :
    ∃ w : Nat, wordAt (encode i ++ rest) 0 = w ∧ opcode w = i.opcode ∧ Spells w (encode i ++ rest) i.operands := by
  obtain ⟨w, he, ho, hm, -⟩ := encodedFields i
  refine ⟨w, by rw [he]; rfl, ho, fun k o hk => ⟨hm k o hk, ?_⟩⟩
  have hlt : k < (i.operands.map Operand.word).length := by
    rw [List.length_map]; exact (List.getElem?_eq_some_iff.1 hk).1
  simp [he, wordAt, List.getElem?_append_left hlt, hk]

/-- Settles O1: the encoded word has the instruction's operation code and mode digits, with its parameter words after it. -/
theorem decodeEncodeRoundTrip : Obligations.DecodeEncodeRoundTrip := by
  intro i rest hwf
  obtain ⟨w, hw, ho, hs⟩ := encode_spells i rest
  rw [decode_ok_iff, hw, Int.toNat_natCast]
  exact ⟨Int.natCast_nonneg w, ho, hwf, hs⟩

/-- Settles O2. -/
theorem decodedInstructionsAreWellFormed : Obligations.DecodedInstructionsAreWellFormed := by
  intro ws i h
  obtain ⟨-, -, hwf, -⟩ := decode_ok_iff.1 h
  exact hwf

/-! ## Surplus digits -/

/-- An operation code and `n` mode digits are the word up to multiples of `10 ^ (n + 2)`. -/
theorem mod_eq_of_mode_eq {w' n : Nat} (ho : opcode w = opcode w')
    (hm : ∀ k, k < n → mode w (k + 1) = mode w' (k + 1)) :
    w % 10 ^ (n + 2) = w' % 10 ^ (n + 2) := by
  induction n with
  | zero => exact ho
  | succ n ih =>
    have hd : w / 10 ^ (n + 2) % 10 = w' / 10 ^ (n + 2) % 10 := hm n (Nat.lt_succ_self n)
    rw [Nat.add_right_comm n 1 2, Nat.mod_pow_succ (k := n + 2), Nat.mod_pow_succ (k := n + 2), hd,
      ih fun k hk => hm k (Nat.lt_succ_of_lt hk)]

theorem instrWord_lt (op : Nat) (hop : op < 100) (m1 m2 m3 : Mode) :
    instrWord op m1.digit 0 0 < ((10 ^ (1 + 2) : Nat) : Int) ∧
      instrWord op m1.digit m2.digit 0 < ((10 ^ (2 + 2) : Nat) : Int) ∧
      instrWord op m1.digit m2.digit m3.digit < ((10 ^ (3 + 2) : Nat) : Int) := by
  have h1 := Laws.EncodedFields.digit_le m1
  have h2 := Laws.EncodedFields.digit_le m2
  have h3 := Laws.EncodedFields.digit_le m3
  simp only [instrWord, Int.ofNat_lt, Nat.reduceAdd, Nat.reducePow]
  omega

/-- The canonical word has no surplus digit (R70). -/
theorem wordAt_encode_lt (i : Instr) : wordAt (encode i) 0 < ((10 ^ (i.operands.length + 2) : Nat) : Int) := by
  cases i with
  | add a b dest => exact (instrWord_lt 1 (by decide) a.mode b.mode dest.mode).2.2
  | mul a b dest => exact (instrWord_lt 2 (by decide) a.mode b.mode dest.mode).2.2
  | input dest => exact (instrWord_lt 3 (by decide) dest.mode .position .position).1
  | output a => exact (instrWord_lt 4 (by decide) a.mode .position .position).1
  | jumpIfTrue a b => exact (instrWord_lt 5 (by decide) a.mode b.mode .position).2.1
  | jumpIfFalse a b => exact (instrWord_lt 6 (by decide) a.mode b.mode .position).2.1
  | lessThan a b dest => exact (instrWord_lt 7 (by decide) a.mode b.mode dest.mode).2.2
  | equals a b dest => exact (instrWord_lt 8 (by decide) a.mode b.mode dest.mode).2.2
  | adjustRelativeBase a => exact (instrWord_lt 9 (by decide) a.mode .position .position).1
  | halt => decide

/-- Settles O3: the word and the canonical word have the same operation code and the same mode digits, and the canonical
word has no others. -/
theorem reencodingLosesOnlySurplusDigits : Obligations.ReencodingLosesOnlySurplusDigits := by
  intro ws i h
  obtain ⟨h0, ho, -, hs⟩ := decode_ok_iff.1 h
  obtain ⟨w, hw, ho', hs'⟩ := encode_spells i []
  have hlt := wordAt_encode_lt i
  rw [List.append_nil] at hw hs'
  rw [hw, Int.ofNat_lt] at hlt
  have hmod : (wordAt ws 0).toNat % 10 ^ (i.operands.length + 2) = w := by
    rw [← Nat.mod_eq_of_lt hlt]
    refine mod_eq_of_mode_eq (ho.trans ho'.symm) fun k hk => ?_
    have hget := List.getElem?_eq_getElem hk
    exact (hs k _ hget).1.trans (hs' k _ hget).1.symm
  refine ⟨⟨(wordAt ws 0).toNat / 10 ^ (i.operands.length + 2), ?_⟩, fun k hk => ?_⟩
  · rw [hw, ← hmod, ← Int.natCast_add, Nat.mod_add_div', Int.toNat_of_nonneg h0]
  · have hget := List.getElem?_eq_getElem hk
    exact (hs k _ hget).2.trans (hs' k _ hget).2.symm

/-- Settles O7: a word that decodes spells the same operands in the other word, and a rejection's cause is looked for among
the same digits. -/
theorem surplusDigitsAreIgnored : Obligations.SurplusDigitsAreIgnored := by
  intro w w' kinds params hk ho hm
  have hk' : paramKinds (opcode w') = some kinds := ho ▸ hk
  cases hd : decode ((w : Int) :: params) with
  | error e =>
    rw [← rejection_eq_some] at hd ⊢
    rw [← hd, rejection_decode (ws := w :: params) (Int.natCast_nonneg w) hk,
      rejection_decode (ws := w' :: params) (Int.natCast_nonneg w') hk']
    exact illegalMode_congr fun j hj => by simpa [wordAt, Nat.add_comm 1] using hm j hj
  | ok i =>
    obtain ⟨-, hop, hwf, hs⟩ := decode_ok_iff.1 hd
    obtain ⟨kinds', hi, hlen⟩ := paramKinds_opcode i
    have hop : opcode w = i.opcode := hop
    cases hi.symm.trans (hop ▸ hk)
    refine decode_ok_iff.2 ⟨Int.natCast_nonneg w', ho.trans hop, hwf, fun k o hko => ?_⟩
    obtain ⟨hmode, hword⟩ := hs k o hko
    exact ⟨(hm k (hlen ▸ (List.getElem?_eq_some_iff.1 hko).1)).trans hmode, hword⟩

/-! ## Legal words -/

/-- Settles O6: a word decodes when its decode phase takes no fault. -/
theorem legalWordsAreExactlyTheDecodable : Obligations.LegalWordsAreExactlyTheDecodable := by
  intro ws
  constructor
  · rintro ⟨i, hi⟩
    obtain ⟨h0, ho⟩ := decode_opcode hi
    obtain ⟨kinds, hk, -⟩ := paramKinds_opcode i
    rw [← ho] at hk
    have hr := rejection_decode h0 hk
    rw [hi] at hr
    exact ⟨h0, kinds, hk, fun k kind h =>
      Nat.add_comm 1 k ▸ illegalMode_eq_none_iff.1 hr.symm k kind h⟩
  · rintro ⟨h0, kinds, hk, hl⟩
    rw [← rejection_eq_none, rejection_decode h0 hk, illegalMode_eq_none_iff]
    exact fun k kind h => Nat.add_comm k 1 ▸ hl k kind h

/-! ## The decoder block -/

theorem digitsUpTo_eq_digits {fuel r : Nat} (h : r ≤ fuel) : digitsUpTo fuel r = Nat.digits 10 r := by
  induction fuel generalizing r with
  | zero => rw [Nat.le_zero.1 h]; rfl
  | succ fuel ih =>
    unfold digitsUpTo
    split
    · next h0 => rw [h0, Nat.digits_zero]
    · next h0 => rw [Nat.digits_def' (by decide) (by omega), ih (by omega)]

theorem decodeWord_eq (w : Nat) : decodeWord w = (w % 100, Nat.digits 10 (w / 100)) := by
  rw [decodeWord, opcode, digitsUpTo_eq_digits le_rfl]

theorem getD_digits_div_hundred (w k : Nat) : (Nat.digits 10 (w / 100)).getD k 0 = w / 10 ^ (k + 2) % 10 := by
  rw [Nat.getD_digits _ _ (by decide), Nat.div_div_eq_div_mul, Nat.pow_add, Nat.mul_comm]

/-- Settles O5: the block's loop computes the decimal digits of `w div 100`. -/
theorem decoderBlockListsTheModeDigits : Obligations.DecoderBlockListsTheModeDigits := by
  refine ⟨fun w => ?_, by decide, by decide, by decide⟩
  rw [decodeWord_eq]
  refine ⟨rfl, rfl, fun k hk => ?_, fun k hk => ?_, fun hw => ?_⟩
  · obtain ⟨k, rfl⟩ := Nat.exists_eq_add_of_le' hk
    exact getD_digits_div_hundred w k
  · obtain ⟨k, rfl⟩ := Nat.exists_eq_add_of_lt (Nat.zero_lt_of_lt hk)
    have hd := getD_digits_div_hundred w (0 + k)
    rw [List.getD_eq_default _ _ (by simp at hk ⊢; omega)] at hd
    exact hd.symm
  · rw [Nat.div_eq_of_lt hw, Nat.digits_zero]

/-- Settles O4 by running the decoder on each word. -/
theorem specWordsDecode : Obligations.SpecWordsDecode := by
  unfold Obligations.SpecWordsDecode
  decide

end Sys2Proof.Machine
end

section
/-! SUPPORT. The statements about the decode phase of a step: its faults, halt, and that every step answers. -/

namespace Sys2Proof.Machine

open Pseudocode (ParamKind paramKinds illegalMode)

variable {s t : State} {i : Instr} {c : FaultCause} {kinds : List ParamKind}

/-! ## Totality, and the faults of the execute phase -/

theorem finish_total (s : State) (r : Except FaultCause State) : ∃ t, finish s r = .next t := by
  cases r with
  | ok t => exact ⟨t, rfl⟩
  | error c => exact ⟨s.raise c, rfl⟩

/-- What the execute phase computes from `s`: a state with the fault record of `s`, or a fault other than InvalidOpcode,
which is the decode phase's alone (R80, R81). -/
def Executes (s : State) : Except FaultCause State → Prop
  | .ok t => t.fault = s.fault
  | .error c => c ≠ .invalidOpcode

theorem Executes.bind {α : Type} {r : Except FaultCause α} {f : α → Except FaultCause State}
    (hr : ErrorsMeet (· ≠ .invalidOpcode) r) (hf : ∀ v, Executes s (f v)) : Executes s (r >>= f) := by
  cases r with
  | ok v => exact hf v
  | error c => exact hr c rfl

section
variable {k : Nat} {a b dest o : Operand}

theorem readValue_errors_ne : ErrorsMeet (· ≠ .invalidOpcode) (readValue s k o) := by
  unfold readValue
  split
  · exact .ok _
  · split
    · exact .ok _
    · exact .error nofun

theorem checkedAddress_errors_ne {m : Mode} {acc : Access} {n : Int} :
    ErrorsMeet (· ≠ .invalidOpcode) (checkedAddress k m acc n) := by
  intro c hc
  obtain ⟨-, rfl⟩ := checkedAddress_error_iff.1 hc
  nofun

theorem checkDest_errors_ne : ErrorsMeet (· ≠ .invalidOpcode) (checkDest k o) := by
  unfold checkDest
  split
  · exact .error nofun
  · exact .ok _

theorem writeAddr_errors_ne : ErrorsMeet (· ≠ .invalidOpcode) (writeAddr s k o) := by
  unfold writeAddr
  split
  · exact .error nofun
  · exact checkedAddress_errors_ne

theorem resolveRR_errors_ne : ErrorsMeet (· ≠ .invalidOpcode) (resolveRR s a b) :=
  readValue_errors_ne.bind fun _ => readValue_errors_ne.bind fun _ => .ok _

theorem resolveRRW_errors_ne : ErrorsMeet (· ≠ .invalidOpcode) (resolveRRW s a b dest) :=
  checkDest_errors_ne.bind fun _ => readValue_errors_ne.bind fun _ => readValue_errors_ne.bind fun _ =>
    writeAddr_errors_ne.bind fun _ => .ok _

theorem resolveW_errors_ne : ErrorsMeet (· ≠ .invalidOpcode) (resolveW s dest) :=
  checkDest_errors_ne.bind fun _ => writeAddr_errors_ne

theorem execRRW_eq_finish (f : Word → Word → Word) :
    ∃ r, execRRW f a b dest s = finish s r ∧ Executes s r :=
  ⟨_, rfl, .bind resolveRRW_errors_ne fun _ => rfl⟩

theorem execJump_eq_finish (taken : Word → Bool) : ∃ r, execJump taken a b s = finish s r ∧ Executes s r := by
  refine ⟨_, rfl, .bind resolveRR_errors_ne fun v => ?_⟩
  dsimp only
  split
  · exact .bind checkedAddress_errors_ne fun _ => rfl
  · rfl

theorem execInput_eq_finish : ∃ r, execInput dest s = finish s r ∧ Executes s r := by
  refine ⟨_, rfl, .bind resolveW_errors_ne fun d => ?_⟩
  split
  · rfl
  · rfl

end

/-- Every meaning ends in `finish`, with an outcome of the execute phase. -/
theorem exec_eq_finish (i : Instr) (s : State) : ∃ r, exec i s = finish s r ∧ Executes s r := by
  cases i with
  | add a b dest => exact execRRW_eq_finish _
  | mul a b dest => exact execRRW_eq_finish _
  | input dest => exact execInput_eq_finish
  | output a => exact ⟨_, rfl, .bind readValue_errors_ne fun _ => rfl⟩
  | jumpIfTrue a b => exact execJump_eq_finish _
  | jumpIfFalse a b => exact execJump_eq_finish fun v => !isNonZero v
  | lessThan a b dest => exact execRRW_eq_finish fun x y => truthWord (decide (x < y))
  | equals a b dest => exact execRRW_eq_finish fun x y => truthWord (decide (x = y))
  | adjustRelativeBase a => exact ⟨_, rfl, .bind readValue_errors_ne fun _ => rfl⟩
  | halt => exact ⟨.ok s.stop, rfl, rfl⟩

theorem exec_total (i : Instr) (s : State) : ∃ t, exec i s = .next t := by
  obtain ⟨r, hr, -⟩ := exec_eq_finish i s
  exact hr ▸ finish_total s r

theorem exec_fault (h : exec i s = .next t) : t.fault = s.fault ∨ ∃ c, c ≠ .invalidOpcode ∧ t = s.raise c := by
  obtain ⟨r, hr, hx⟩ := exec_eq_finish i s
  rcases finish_next.1 (hr.symm.trans h) with rfl | ⟨c, rfl, ht⟩
  · exact .inl hx
  · exact .inr ⟨c, hx, ht⟩

theorem step_of_decode_ok (hs : s.state = .running) (h : decode s.fetchWords = .ok i) : step s = exec i s := by
  rw [step_of_running hs, h]

/-- R104: a rejection by the decode phase is the fault of the step. -/
theorem step_of_rejection (hs : s.state = .running) (h : rejection (decode s.fetchWords) = some c) :
    step s = .next (s.raise c) := by
  rw [step_of_running hs]
  cases hd : decode s.fetchWords with
  | ok i => rw [hd] at h; cases h
  | error e => rw [hd] at h; cases h; rfl

/-- Settles O33. -/
theorem everyStepAnswersANextState : Obligations.EveryStepAnswersANextState := by
  refine ⟨exec_total, fun s => ?_⟩
  by_cases hs : s.state = .running
  · cases hd : decode s.fetchWords with
    | ok i => exact step_of_decode_ok hs hd ▸ exec_total i s
    | error e => exact ⟨_, step_of_rejection hs (rejection_eq_some.2 hd)⟩
  · exact ⟨s, step_of_not_running hs⟩

/-! ## Operation codes outside the table -/

theorem natCast_opcode_toNat {v : Int} (h : 0 ≤ v) : (opcode v.toNat : Int) = v % 100 := by
  rw [opcode, Int.natCast_emod, Int.toNat_of_nonneg h]; rfl

/-- The operation codes of the table, for a word that is not negative. -/
theorem paramKinds_eq_none_iff_emod {v : Int} (h : 0 ≤ v) :
    paramKinds (opcode v.toNat) = none ↔ v % 100 ∉ ([1, 2, 3, 4, 5, 6, 7, 8, 9, 99] : List Int) := by
  rw [paramKinds_eq_none_iff, ← natCast_opcode_toNat h]
  simp only [List.mem_cons, List.not_mem_nil, or_false]
  omega

/-- R80, R81. -/
theorem decode_fetchWords_eq_invalidOpcode_iff :
    decode s.fetchWords = .error .invalidOpcode ↔
      s.mem.read s.ip < 0 ∨ s.mem.read s.ip % 100 ∉ ([1, 2, 3, 4, 5, 6, 7, 8, 9, 99] : List Int) := by
  rcases lt_or_ge (s.mem.read s.ip) 0 with hneg | h0
  · exact iff_of_true (decode_of_neg hneg) (.inl hneg)
  · rw [← paramKinds_eq_none_iff_emod h0, or_iff_right (not_lt.2 h0)]
    constructor
    · intro hd
      cases hk : paramKinds (opcode (s.mem.read s.ip).toNat) with
      | none => rfl
      | some kinds =>
        have hr := rejection_decode (ws := s.fetchWords) h0 hk
        rw [hd] at hr
        exact absurd hr.symm illegalMode_ne_invalidOpcode
    · exact decode_of_paramKinds_none (ws := s.fetchWords) h0

/-- Settles O8: the decode phase alone takes InvalidOpcode, and for these words only. -/
theorem illegalOpcodesFault : Obligations.IllegalOpcodesFault := by
  intro s hs
  rw [← decode_fetchWords_eq_invalidOpcode_iff]
  refine ⟨fun hd => step_of_rejection hs (rejection_eq_some.2 hd), fun hf t r ht hr hc => ?_⟩
  cases hd : decode s.fetchWords with
  | error e =>
    rw [step_of_rejection hs (rejection_eq_some.2 hd)] at ht
    cases ht
    cases hr
    rw [decodeCause_injective (show decodeCause e = decodeCause .invalidOpcode from hc)]
  | ok i =>
    rw [step_of_decode_ok hs hd] at ht
    rcases exec_fault ht with hfault | ⟨c, hne, rfl⟩
    · rw [hfault, hf] at hr; cases hr
    · cases hr; exact absurd hc hne

/-! ## Illegal mode digits -/

/-- Settles O9: legal parameters are passed over, so the first illegal one is the cause of the rejection. -/
theorem illegalModesFault : Obligations.IllegalModesFault := by
  intro s kinds k kind hs h0 hk hkind hlegal
  have hrej : rejection (decode s.fetchWords) =
      illegalMode (s.mem.read s.ip).toNat (k + 1) (kind :: kinds.drop (k + 1)) := by
    obtain ⟨hlt, rfl⟩ := List.getElem?_eq_some_iff.1 hkind
    rw [← List.drop_eq_getElem_cons hlt, Nat.add_comm k 1, rejection_decode (ws := s.fetchWords) h0 hk]
    exact illegalMode_eq_drop fun j kj hj hkj => Nat.add_comm j 1 ▸ hlegal j kj hj hkj
  constructor
  · intro h3
    exact step_of_rejection hs (hrej.trans (illegalMode_cons_of_unknown h3))
  · rintro rfl h1
    exact step_of_rejection hs (hrej.trans (illegalMode_cons_of_immediateWrite h1))

/-! ## Halt -/

theorem decode_eq_halt_iff {ws : List Word} :
    decode ws = .ok .halt ↔ 0 ≤ wordAt ws 0 ∧ opcode (wordAt ws 0).toNat = 99 := by
  rw [decode_ok_iff]
  exact and_congr_right fun _ => and_iff_left ⟨rfl, forall_getElem?_nil⟩

/-- Settles O26: the operation code 99 has no operand that could be illegal. -/
theorem haltChangesTheStateAlone : Obligations.HaltChangesTheStateAlone := by
  refine ⟨fun s => rfl, fun s hs h0 h99 => ?_⟩
  have hop : opcode (s.mem.read s.ip).toNat = 99 := by
    rw [← Int.natCast_inj, natCast_opcode_toNat h0, h99]; rfl
  exact step_of_decode_ok hs (decode_eq_halt_iff.2 ⟨h0, hop⟩)

end Sys2Proof.Machine
end

section
/-! SUPPORT. What resolution and the execute phase answer, instruction by instruction: the completions, and the order of
the faults. -/

namespace Sys2Proof.Machine

variable {s t : State} {i : Instr} {a b dest o : Operand} {k : Nat} {x y : Word} {d : Addr} {c : FaultCause}

/-! ## Operands by mode -/

/-- R109 for an operand that names an address. -/
theorem readValue_of_address {n : Int} (h : operandAddress s o = some n) :
    readValue s k o =
      if n < 0 then .error (.invalidAddress k o.mode.digit n .read) else .ok (s.mem.read n.toNat) := by
  rw [readValue, h]
  by_cases hn : n < 0
  · simp [Memory.readAt_of_neg _ hn, hn]
  · simp [Memory.readAt_of_nonneg _ (not_lt.1 hn), hn]

/-- R110 for an operand that names an address. -/
theorem writeAddr_of_address {n : Int} (h : operandAddress s o = some n) :
    writeAddr s k o = if n < 0 then .error (.invalidAddress k o.mode.digit n .write) else .ok n.toNat := by
  rw [writeAddr, h]
  rfl

/-- Settles O17: the address each mode names, on both sides of the sign check. -/
theorem readOperandResolvesByMode : Obligations.ReadOperandResolvesByMode := fun _ _ _ =>
  ⟨fun h => (readValue_of_address rfl).trans (if_pos h),
    fun h => (readValue_of_address rfl).trans (if_neg (not_lt.2 h)),
    rfl,
    fun h => (readValue_of_address rfl).trans (if_pos h),
    fun h => (readValue_of_address rfl).trans (if_neg (not_lt.2 h))⟩

/-- Settles O18: the address each mode names, on both sides of the sign check. -/
theorem writeOperandResolvesByMode : Obligations.WriteOperandResolvesByMode := fun _ _ _ =>
  ⟨fun h => (writeAddr_of_address rfl).trans (if_pos h),
    fun h => (writeAddr_of_address rfl).trans (if_neg (not_lt.2 h)),
    fun h => (writeAddr_of_address rfl).trans (if_pos h),
    fun h => (writeAddr_of_address rfl).trans (if_neg (not_lt.2 h))⟩

/-! ## Completions -/

theorem execInput_of_nil (hd : writeAddr s 1 dest = .ok d) (hq : s.inq = []) :
    execInput dest s = .next s.suspend := by
  rw [execInput, resolveW_ok_iff.2 hd, hq]
  rfl

theorem execOutput_of_ok (ha : readValue s 1 a = .ok x) : execOutput a s = .next ((s.emit x).advance 2) := by
  rw [execOutput, ha]
  rfl

theorem execAdjustRelativeBase_of_ok (ha : readValue s 1 a = .ok x) :
    execAdjustRelativeBase a s = .next ((s.adjustBase x).advance 2) := by
  rw [execAdjustRelativeBase, ha]
  rfl

theorem execJump_of_resolved {taken : Word → Bool} (ha : readValue s 1 a = .ok x) (hb : readValue s 2 b = .ok y) :
    execJump taken a b s = finish s (if taken x then jumpTo s b y else .ok (s.advance 3)) := by
  rw [execJump, resolveRR_ok_iff.2 ⟨ha, hb⟩]
  rfl

/-- Settles O19. -/
theorem addAndMultiplyStoreTheResult : Obligations.AddAndMultiplyStoreTheResult :=
  fun _ _ _ _ _ _ _ ha hb hd =>
    ⟨exec_of_resolved ha hb hd (.inl ⟨rfl, rfl⟩), exec_of_resolved ha hb hd (.inr (.inl ⟨rfl, rfl⟩))⟩

/-- Settles O20. -/
theorem comparesStoreOneOrZero : Obligations.ComparesStoreOneOrZero :=
  fun _ _ _ _ _ _ _ ha hb hd =>
    ⟨exec_of_resolved ha hb hd (.inr (.inr (.inl ⟨rfl, rfl⟩))),
      exec_of_resolved ha hb hd (.inr (.inr (.inr ⟨rfl, rfl⟩)))⟩

/-- Settles O21. -/
theorem inputTakesTheOldestElement : Obligations.InputTakesTheOldestElement :=
  fun _ _ _ _ _ hd hq => execInput_of_cons hd hq

/-- Settles O23. -/
theorem outputAppendsTheValue : Obligations.OutputAppendsTheValue := fun _ _ _ ha => execOutput_of_ok ha

/-- Settles O25. -/
theorem adjustRelativeBaseAddsToTheBase : Obligations.AdjustRelativeBaseAddsToTheBase :=
  fun _ _ _ ha => execAdjustRelativeBase_of_ok ha

/-! ## The jumps -/

/-- `i` is a jump over `a` and `b`, and `taken` is its condition on the value of `a` (R150, R151). -/
def JumpsWhen (taken : Word → Prop) (a b : Operand) (i : Instr) : Prop :=
  (i = .jumpIfTrue a b ∧ ∀ x, taken x ↔ x ≠ 0) ∨ (i = .jumpIfFalse a b ∧ ∀ x, taken x ↔ x = 0)

section
variable {taken : Word → Prop}

theorem jumpsWhen_jumpIfTrue (a b : Operand) : JumpsWhen (· ≠ 0) a b (.jumpIfTrue a b) :=
  .inl ⟨rfl, fun _ => Iff.rfl⟩

theorem jumpsWhen_jumpIfFalse (a b : Operand) : JumpsWhen (· = 0) a b (.jumpIfFalse a b) :=
  .inr ⟨rfl, fun _ => Iff.rfl⟩

theorem JumpsWhen.exec_eq (hi : JumpsWhen taken a b i) :
    ∃ p : Word → Bool, exec i s = execJump p a b s ∧ ∀ x, p x = true ↔ taken x := by
  obtain ⟨rfl, h⟩ | ⟨rfl, h⟩ := hi
  · exact ⟨isNonZero, rfl, fun x => isNonZero_eq_true.trans (h x).symm⟩
  · exact ⟨fun x => !isNonZero x, rfl, fun x => by rw [h, Bool.not_eq_true', isNonZero_eq_false]⟩

/-- R112: a fault of resolving the operands is taken whether or not the jump would be. -/
theorem JumpsWhen.exec_of_error (hi : JumpsWhen taken a b i) (h : resolveRR s a b = .error c) :
    exec i s = .next (s.raise c) := by
  obtain ⟨p, hp, -⟩ := hi.exec_eq (s := s)
  rw [hp, execJump, h]
  rfl

theorem JumpsWhen.exec_of_taken (hi : JumpsWhen taken a b i) (ha : readValue s 1 a = .ok x)
    (hb : readValue s 2 b = .ok y) (hx : taken x) (hy : 0 ≤ y) : exec i s = .next (s.setIp y.toNat) := by
  obtain ⟨p, hp, hpx⟩ := hi.exec_eq (s := s)
  rw [hp, execJump_of_resolved ha hb, if_pos ((hpx x).2 hx), jumpTo_ok_iff.2 ⟨hy, rfl⟩, finish_ok]

theorem JumpsWhen.exec_of_neg (hi : JumpsWhen taken a b i) (ha : readValue s 1 a = .ok x)
    (hb : readValue s 2 b = .ok y) (hx : taken x) (hy : y < 0) :
    exec i s = .next (s.raise (.invalidAddress 2 b.mode.digit y .jump)) := by
  obtain ⟨p, hp, hpx⟩ := hi.exec_eq (s := s)
  rw [hp, execJump_of_resolved ha hb, if_pos ((hpx x).2 hx), jumpTo_error_iff.2 ⟨hy, rfl⟩, finish_error]

theorem JumpsWhen.exec_of_not_taken (hi : JumpsWhen taken a b i) (ha : readValue s 1 a = .ok x)
    (hb : readValue s 2 b = .ok y) (hx : ¬taken x) : exec i s = .next (s.advance 3) := by
  obtain ⟨p, hp, hpx⟩ := hi.exec_eq (s := s)
  rw [hp, execJump_of_resolved ha hb, if_neg (mt (hpx x).1 hx), finish_ok]

end

theorem resolveRR_of_error_fst (ha : readValue s 1 a = .error c) : resolveRR s a b = .error c := by
  rw [resolveRR, ha]
  rfl

theorem resolveRR_of_error_snd (ha : readValue s 1 a = .ok x) (hb : readValue s 2 b = .error c) :
    resolveRR s a b = .error c := by
  rw [resolveRR, ha, hb]
  rfl

/-- Settles O24. -/
theorem jumpsSetTheInstructionPointer : Obligations.JumpsSetTheInstructionPointer := fun a b _ _ _ ha hb =>
  ⟨(jumpsWhen_jumpIfTrue a b).exec_of_taken ha hb,
    fun hx => (jumpsWhen_jumpIfTrue a b).exec_of_not_taken ha hb (not_not.2 hx),
    (jumpsWhen_jumpIfFalse a b).exec_of_taken ha hb,
    (jumpsWhen_jumpIfFalse a b).exec_of_not_taken ha hb⟩

/-- Settles O11: the operands are resolved in order, and only then is the condition looked at. -/
theorem jumpFaultsComeInOrder : Obligations.JumpFaultsComeInOrder := by
  intro a b s i taken hi
  have hi : JumpsWhen taken a b i := hi
  exact ⟨fun c ha => hi.exec_of_error (resolveRR_of_error_fst ha),
    fun x c ha hb => hi.exec_of_error (resolveRR_of_error_snd ha hb),
    fun x y ha hb => ⟨hi.exec_of_neg ha hb, hi.exec_of_not_taken ha hb⟩⟩

/-! ## add, multiply, less-than and equals -/

/-- `i` is one of the four instructions of the format `RRW`, over these operands. -/
def IsTriple (a b dest : Operand) (i : Instr) : Prop :=
  i = .add a b dest ∨ i = .mul a b dest ∨ i = .lessThan a b dest ∨ i = .equals a b dest

theorem IsTriple.exec_eq (hi : IsTriple a b dest i) : ∃ f, exec i s = execRRW f a b dest s := by
  obtain rfl | rfl | rfl | rfl := hi
  · exact ⟨_, rfl⟩
  · exact ⟨_, rfl⟩
  · exact ⟨fun x y => truthWord (decide (x < y)), rfl⟩
  · exact ⟨fun x y => truthWord (decide (x = y)), rfl⟩

theorem IsTriple.exec_of_error (hi : IsTriple a b dest i) (h : resolveRRW s a b dest = .error c) :
    exec i s = .next (s.raise c) := by
  obtain ⟨f, hf⟩ := hi.exec_eq (s := s)
  rw [hf, execRRW, h]
  rfl

theorem IsTriple.exec_next (hi : IsTriple a b dest i) (h : exec i s = .next t) :
    (∃ d v, writeAddr s 3 dest = .ok d ∧ t = (s.store d v).advance 4) ∨ ∃ c, t = s.raise c := by
  obtain ⟨f, hf⟩ := hi.exec_eq (s := s)
  rcases execRRW_next (hf.symm.trans h) with ⟨x, y, d, -, -, hd, ht⟩ | ⟨c, -, ht⟩
  · exact .inl ⟨d, f x y, hd, ht⟩
  · exact .inr ⟨c, ht⟩

theorem IsTriple.dest_eq (hi : IsTriple a b dest i) : i.dest = some (3, dest) := by
  obtain rfl | rfl | rfl | rfl := hi <;> rfl

theorem IsTriple.width_eq (hi : IsTriple a b dest i) : i.width = 4 := by
  obtain rfl | rfl | rfl | rfl := hi <;> rfl

/-- Settles O10: the mode check, then the two values, then the destination; the first error is the fault. -/
theorem threeOperandFaultsComeInOrder : Obligations.ThreeOperandFaultsComeInOrder := by
  intro a b dest s i hi
  have hi : IsTriple a b dest i := hi
  refine ⟨fun hm => hi.exec_of_error (resolveRRW_of_immediate hm), fun hm =>
    ⟨fun c ha => hi.exec_of_error ?_, fun x c ha hb => hi.exec_of_error ?_,
      fun x y c ha hb hd => hi.exec_of_error ?_⟩⟩
  · rw [resolveRRW_of_writable hm, resolveRR_of_error_fst ha]; rfl
  · rw [resolveRRW_of_writable hm, resolveRR_of_error_snd ha hb]; rfl
  · rw [resolveRRW_of_writable hm, resolveRR_ok_iff.2 ⟨ha, hb⟩, hd]; rfl

end Sys2Proof.Machine
end

section
/-! SUPPORT. The frames of the instructions: what each leaves unchanged. -/

namespace Sys2Proof.Machine

/-- Settles O28: one store and an advance, or a fault. -/
theorem threeOperandFrame : Obligations.ThreeOperandFrame := by
  intro a b dest s t i hi h
  rcases IsTriple.exec_next hi h with ⟨d, v, hd, rfl⟩ | ⟨c, rfl⟩
  · refine ⟨fun d' hd' adr hne => ?_, fun c hc => ?_, rfl, rfl, rfl, rfl, rfl, rfl, .inr ⟨rfl, rfl⟩⟩
    · cases hd.symm.trans hd'
      exact Memory.read_write_of_ne _ _ hne
    · cases hd.symm.trans hc
  · exact ⟨fun _ _ _ _ => rfl, fun _ _ _ => rfl, rfl, rfl, rfl, rfl, rfl, rfl, .inl rfl⟩

/-- Settles O29: input takes one element and stores it, suspends, or takes a fault. -/
theorem inputFrame : Obligations.InputFrame := by
  intro dest s t h
  rcases execInput_next h with ⟨d, x, rest, hd, hq, rfl⟩ | ⟨d, hd, hq, rfl⟩ | ⟨c, -, rfl⟩
  · refine ⟨fun d' hd' adr hne => ?_, fun hnil => ?_, fun c hc => ?_, .inr (congrArg List.tail hq).symm,
      rfl, rfl, rfl, rfl, rfl, .inr ⟨.inl rfl, rfl⟩⟩
    · cases hd.symm.trans hd'
      exact Memory.read_write_of_ne _ _ hne
    · cases hq.symm.trans hnil
    · cases hd.symm.trans hc
  · exact ⟨fun _ _ _ _ => rfl, fun _ _ => rfl, fun _ _ => ⟨rfl, fun _ => rfl⟩, .inl rfl, rfl, rfl, rfl, rfl, rfl,
      .inr ⟨.inr rfl, rfl⟩⟩
  · exact ⟨fun _ _ _ _ => rfl, fun _ _ => rfl, fun _ _ => ⟨rfl, fun _ => rfl⟩, .inl rfl, rfl, rfl, rfl, rfl, rfl,
      .inl rfl⟩

/-- Settles O30: no effect of such an instruction stores a word, and `rb` and `out` change in one effect each. -/
theorem nonStoringFrame : Obligations.NonStoringFrame := by
  intro i s t hdest h
  cases exec_effect h
  case stored hi => cases hdest.symm.trans (IsTriple.dest_eq hi)
  case took => cases hdest
  case suspended => cases hdest
  case raised c ht =>
    subst ht
    exact ⟨fun _ => rfl, rfl, fun _ => rfl, fun _ => rfl, rfl, rfl, rfl, .inl rfl⟩
  case emitted a x _ ht =>
    subst ht
    exact ⟨fun _ => rfl, rfl, fun _ => rfl, fun hne => absurd rfl (hne a), rfl, rfl, rfl, .inr ⟨.inl rfl, rfl⟩⟩
  case adjusted a x _ ht =>
    subst ht
    exact ⟨fun _ => rfl, rfl, fun hne => absurd rfl (hne a), fun _ => rfl, rfl, rfl, rfl, .inr ⟨.inl rfl, rfl⟩⟩
  case halted ht =>
    subst ht
    exact ⟨fun _ => rfl, rfl, fun _ => rfl, fun _ => rfl, rfl, rfl, rfl, .inr ⟨.inr ⟨rfl, rfl⟩, rfl⟩⟩
  all_goals
    subst t
    exact ⟨fun _ => rfl, rfl, fun _ => rfl, fun _ => rfl, rfl, rfl, rfl, .inr ⟨.inl rfl, rfl⟩⟩

end Sys2Proof.Machine
end

section
/-! SUPPORT. The statements about a step as a whole: it is all or nothing, where it leaves `ip`, when it suspends. -/

namespace Sys2Proof.Machine

variable {s t : State} {i : Instr} {x y : Word}

/-- Settles O31. -/
theorem stepRunsTheDecodedInstruction : Obligations.StepRunsTheDecodedInstruction := fun _ hs =>
  ⟨fun _ => step_of_decode_ok hs, fun _ he => step_of_rejection hs (rejection_eq_some.2 he)⟩

/-- Settles O32. -/
theorem stepOutsideRunningChangesNothing : Obligations.StepOutsideRunningChangesNothing :=
  fun _ => step_of_not_running

/-- Settles O35: the decode phase takes a fault, or the decoded instruction has one of the effects. -/
theorem stepIsAllOrNothing : Obligations.StepIsAllOrNothing := by
  intro s t hs h
  obtain ⟨i, hdec, heff⟩ | ⟨e, -, ht⟩ := step_effect hs h
  · cases heff with
    | raised _ c ht => exact .inr (.inr (.inl ⟨c, ht⟩))
    | suspended _ _ _ _ ht => exact .inr (.inl ht)
    | halted ht => exact .inl ht
    | stored _ _ _ dest _ _ v d hi _ _ hd ht =>
      subst ht
      exact .inr (.inr (.inr ⟨hs, rfl, rfl, rfl, rfl,
        .inr ⟨i, 3, dest, d, v, hdec, IsTriple.dest_eq hi, hd, rfl⟩, .inl ⟨rfl, rfl⟩⟩))
    | took dest d x rest hd _ ht =>
      subst ht
      exact .inr (.inr (.inr ⟨hs, rfl, rfl, rfl, rfl,
        .inr ⟨.input dest, 1, dest, d, x, hdec, rfl, hd, rfl⟩, .inr (.inl ⟨rfl, rfl⟩)⟩))
    | emitted _ _ _ ht =>
      subst ht; exact .inr (.inr (.inr ⟨hs, rfl, rfl, rfl, rfl, .inl rfl, .inr (.inr ⟨rfl, rfl⟩)⟩))
    | adjusted _ _ _ ht =>
      subst ht; exact .inr (.inr (.inr ⟨hs, rfl, rfl, rfl, rfl, .inl rfl, .inl ⟨rfl, rfl⟩⟩))
    | jumped _ _ _ _ _ _ _ _ _ ht =>
      subst ht; exact .inr (.inr (.inr ⟨hs, rfl, rfl, rfl, rfl, .inl rfl, .inl ⟨rfl, rfl⟩⟩))
    | passed _ _ _ _ _ _ _ _ ht =>
      subst ht; exact .inr (.inr (.inr ⟨hs, rfl, rfl, rfl, rfl, .inl rfl, .inl ⟨rfl, rfl⟩⟩))
  · exact .inr (.inr (.inl ⟨decodeCause e, ht⟩))

/-- Settles O13: of the outcomes of a step only a fault taken is faulted. -/
theorem faultsArePrecise : Obligations.FaultsArePrecise := by
  intro s t hs h ht
  obtain rfl | rfl | ⟨c, rfl⟩ | ⟨hrun, -⟩ := stepIsAllOrNothing s t hs h
  · cases ht
  · cases ht
  · exact ⟨c, rfl⟩
  · cases hrun.symm.trans ht

/-! ## The instruction pointer -/

theorem step_ip_of_not_running (hs : s.state = .running) (h : step s = .next t) (ht : t.state ≠ .running) :
    t.ip = s.ip := by
  obtain rfl | rfl | ⟨c, rfl⟩ | ⟨hrun, -⟩ := stepIsAllOrNothing s t hs h
  · rfl
  · rfl
  · rfl
  · exact absurd hrun ht

/-- R152: a jump that is taken and completes has a target that is not negative, and goes there. -/
theorem JumpsWhen.ip_of_taken {taken : Word → Prop} {a b : Operand} (hi : JumpsWhen taken a b i)
    (ha : readValue s 1 a = .ok x) (hb : readValue s 2 b = .ok y) (hx : taken x) (h : exec i s = .next t)
    (ht : t.state = .running) : 0 ≤ y ∧ t.ip = y.toNat := by
  rcases lt_or_ge y 0 with hy | hy
  · rw [hi.exec_of_neg ha hb hx hy] at h
    cases h
    cases ht
  · rw [hi.exec_of_taken ha hb hx hy] at h
    cases h
    exact ⟨hy, rfl⟩

/-- R114: an instruction that completes, and is no taken jump, goes on by its width. -/
theorem Effect.ip_eq (h : Effect s t i) (ht : t.state = .running)
    (hj : ∀ a b x, readValue s 1 a = .ok x → ¬(i = .jumpIfTrue a b ∧ x ≠ 0 ∨ i = .jumpIfFalse a b ∧ x = 0)) :
    t.ip = s.ip + i.width := by
  cases h with
  | raised _ _ he => subst he; cases ht
  | suspended _ _ _ _ he => subst he; cases ht
  | halted he => subst he; cases ht
  | jumped _ a b x _ hi ha => exact absurd hi (hj a b x ha)
  | passed _ _ _ _ _ hi _ _ he => subst he; obtain ⟨rfl, -⟩ | ⟨rfl, -⟩ := hi <;> rfl
  | stored _ _ _ _ _ _ _ _ hi _ _ _ he => rw [he, IsTriple.width_eq hi]; rfl
  | took _ _ _ _ _ _ he => subst he; rfl
  | emitted _ _ _ he => subst he; rfl
  | adjusted _ _ _ he => subst he; rfl

/-- Settles O36: by outcome, and for a completed instruction by whether it is a taken jump. -/
theorem instructionPointerAfterAStep : Obligations.InstructionPointerAfterAStep := by
  intro s t i hs hdec h
  have hx : exec i s = .next t := step_of_decode_ok hs hdec ▸ h
  refine ⟨step_ip_of_not_running hs h, fun ht => ⟨?_, (exec_effect hx).ip_eq ht⟩⟩
  rintro a b x y (⟨rfl, hne⟩ | ⟨rfl, heq⟩) ha hb
  · exact (jumpsWhen_jumpIfTrue a b).ip_of_taken ha hb hne hx ht
  · exact (jumpsWhen_jumpIfFalse a b).ip_of_taken ha hb heq hx ht

/-! ## Suspension -/

theorem Effect.input_of_awaitingInput (h : Effect s t i) (hs : s.state = .running) (ht : t.state = .awaitingInput) :
    ∃ dest d, i = .input dest ∧ writeAddr s 1 dest = .ok d ∧ s.inq = [] := by
  cases h
  case suspended dest d hd hq _ => exact ⟨dest, d, rfl, hd, hq⟩
  case raised he => subst he; cases ht
  case halted he => subst he; cases ht
  all_goals subst t; cases hs.symm.trans ht

/-- Settles O38: suspension is an effect of input alone, and the effect of an input with the queue empty. -/
theorem onlyAnEmptyQueueSuspends : Obligations.OnlyAnEmptyQueueSuspends := by
  intro s t hs h
  constructor
  · intro ht
    obtain ⟨i, hdec, heff⟩ | ⟨e, -, rfl⟩ := step_effect hs h
    · obtain ⟨dest, d, rfl, hd, hq⟩ := heff.input_of_awaitingInput hs ht
      exact ⟨dest, d, hdec, hd, hq⟩
    · cases ht
  · rintro ⟨dest, d, hdec, hd, hq⟩
    have hx : step s = .next s.suspend := (step_of_decode_ok hs hdec).trans (execInput_of_nil hd hq)
    cases h.symm.trans hx
    rfl

end Sys2Proof.Machine
end

section
/-! SUPPORT. The step against the spec's pseudocode (R102): resolution and execution agree, operand by operand and format
by format. -/

namespace Sys2Proof.Machine

open Pseudocode (ParamKind paramKinds illegalMode param rdVal wrAddr resolve execute)

variable {s : State} {w k : Nat} {a b dest o : Operand} {i : Instr} {kinds : List ParamKind}

/-! ## Operands -/

/-- Parameter `k` of the word `w` at `ip` is the operand `o`: its mode digit and its parameter word (R72, R107). -/
def IsParam (s : State) (w k : Nat) (o : Operand) : Prop := mode w k = o.mode.digit ∧ param s k = o.word

theorem Spells.isParam {os : List Operand} (h : Spells w s.fetchWords os) (hk : k < 3) (ho : os[k]? = some o) :
    IsParam s w (k + 1) o := by
  obtain ⟨hmode, hword⟩ := h k o ho
  rw [wordAt_fetchWords s (Nat.succ_lt_succ hk)] at hword
  exact ⟨hmode, hword⟩

/-- R109. -/
theorem rdVal_eq (h : IsParam s w k o) : rdVal s w k = readValue s k o := by
  obtain ⟨hmode, hword⟩ := h
  unfold rdVal
  rw [hmode, hword]
  obtain ⟨m, p⟩ := o
  cases m with
  | position => exact (readValue_of_address (s := s) (o := ⟨.position, p⟩) rfl).symm
  | immediate => rfl
  | relative => exact (readValue_of_address (s := s) (o := ⟨.relative, p⟩) rfl).symm

/-- R110. -/
theorem wrAddr_eq (h : IsParam s w k o) (ho : o.writable = true) : wrAddr s w k = writeAddr s k o := by
  obtain ⟨hmode, hword⟩ := h
  unfold wrAddr
  rw [hmode, hword]
  obtain ⟨m, p⟩ := o
  cases m with
  | position => exact (writeAddr_of_address rfl).symm
  | immediate => cases ho
  | relative => exact (writeAddr_of_address rfl).symm

theorem mode_ne_of_writable (h : o.writable = true) : o.mode ≠ .immediate := by
  rintro hm
  simp [Operand.writable, hm] at h

/-! ## Resolution by format -/

theorem resolve_R (hsp : Spells w s.fetchWords [a]) :
    resolve s w 1 [.R] = (readValue s 1 a).map fun x => ([x], 0) := by
  have ha : IsParam s w 1 a := hsp.isParam (k := 0) (by decide) rfl
  simp only [resolve, rdVal_eq ha]
  cases readValue s 1 a <;> rfl

theorem resolve_W (hsp : Spells w s.fetchWords [dest]) (hw : dest.writable = true) :
    resolve s w 1 [.W] = (resolveW s dest).map fun d => ([], d) := by
  have hd : IsParam s w 1 dest := hsp.isParam (k := 0) (by decide) rfl
  rw [resolveW_of_writable (mode_ne_of_writable hw)]
  simp only [resolve, wrAddr_eq hd hw]
  cases writeAddr s 1 dest <;> rfl

theorem resolve_RR (hsp : Spells w s.fetchWords [a, b]) :
    resolve s w 1 [.R, .R] = (resolveRR s a b).map fun v => ([v.1, v.2], 0) := by
  have ha : IsParam s w 1 a := hsp.isParam (k := 0) (by decide) rfl
  have hb : IsParam s w 2 b := hsp.isParam (k := 1) (by decide) rfl
  simp only [resolve, resolveRR, rdVal_eq ha, rdVal_eq hb]
  cases readValue s 1 a with
  | error c => rfl
  | ok x => cases readValue s 2 b <;> rfl

theorem resolve_RRW (hsp : Spells w s.fetchWords [a, b, dest]) (hw : dest.writable = true) :
    resolve s w 1 [.R, .R, .W] = (resolveRRW s a b dest).map fun v => ([v.1, v.2.1], v.2.2) := by
  have ha : IsParam s w 1 a := hsp.isParam (k := 0) (by decide) rfl
  have hb : IsParam s w 2 b := hsp.isParam (k := 1) (by decide) rfl
  have hd : IsParam s w 3 dest := hsp.isParam (k := 2) (by decide) rfl
  rw [resolveRRW_of_writable (mode_ne_of_writable hw)]
  simp only [resolve, resolveRR, rdVal_eq ha, rdVal_eq hb, wrAddr_eq hd hw]
  cases readValue s 1 a with
  | error c => rfl
  | ok x =>
    cases readValue s 2 b with
    | error c => rfl
    | ok y => cases writeAddr s 3 dest <;> rfl

/-! ## Execution by format -/

/-- The end of the pseudocode's step (R102): the fault of resolution, or the rule of the operation code. -/
def complete (s : State) (w : Nat) : Except FaultCause (List Word × Addr) → State
  | .error c => s.raise c
  | .ok (vs, d) => execute s w (vs.getD 0 0) (vs.getD 1 0) d

/-- A meaning that resolves as the pseudocode does, and then does what the pseudocode's rule does, is the pseudocode's. -/
theorem finish_bind_eq {α : Type} {r : Except FaultCause α} {f : α → Except FaultCause State}
    {g : α → List Word × Addr} (h : ∀ v, finish s (f v) = .next (complete s w (.ok (g v)))) :
    finish s (r >>= f) = .next (complete s w (r.map g)) := by
  cases r with
  | error c => rfl
  | ok v => exact h v

theorem execRRW_eq_complete {f : Word → Word → Word} (hsp : Spells w s.fetchWords [a, b, dest])
    (hw : dest.writable = true) (h : ∀ x y d, execute s w x y d = (s.store d (f x y)).advance 4) :
    execRRW f a b dest s = .next (complete s w (resolve s w 1 [.R, .R, .W])) := by
  rw [resolve_RRW hsp hw]
  exact finish_bind_eq fun v => congrArg Host.Outcome.next (h v.1 v.2.1 v.2.2).symm

theorem execR1_eq_complete {f : Word → State} (hsp : Spells w s.fetchWords [a])
    (h : ∀ x y d, execute s w x y d = f x) :
    finish s (readValue s 1 a >>= fun x => .ok (f x)) = .next (complete s w (resolve s w 1 [.R])) := by
  rw [resolve_R hsp]
  exact finish_bind_eq fun x => congrArg Host.Outcome.next (h x 0 0).symm

/-- R152: the two spellings of a jump. -/
theorem finish_jumpTo (hb : mode w 2 = b.mode.digit) (y : Word) :
    finish s (jumpTo s b y) = .next (Pseudocode.jump s w y) := by
  rw [Pseudocode.jump, hb]
  rcases lt_or_ge y 0 with hy | hy
  · rw [if_pos hy, jumpTo_error_iff.2 ⟨hy, rfl⟩, finish_error]
  · rw [if_neg (not_lt.2 hy), jumpTo_ok_iff.2 ⟨hy, rfl⟩, finish_ok, State.setIp]

theorem execJump_eq_complete {taken : Word → Bool} (hsp : Spells w s.fetchWords [a, b])
    (h : ∀ x y d, execute s w x y d = if taken x then Pseudocode.jump s w y else s.advance 3) :
    execJump taken a b s = .next (complete s w (resolve s w 1 [.R, .R])) := by
  rw [resolve_RR hsp]
  refine finish_bind_eq fun (x, y) => ?_
  refine Eq.trans ?_ (congrArg Host.Outcome.next (h x y 0).symm)
  dsimp only
  split
  · exact finish_jumpTo (hsp 1 b rfl).1 y
  · rfl

theorem execute_input_of_nil {v1 v2 : Word} {d : Addr} (ho : opcode w = 3) (hq : s.inq = []) :
    execute s w v1 v2 d = s.suspend := by
  simp only [execute, ho, hq, State.suspend]

theorem execute_input_of_cons {v1 v2 x : Word} {d : Addr} {rest : List Word} (ho : opcode w = 3)
    (hq : s.inq = x :: rest) : execute s w v1 v2 d = ((s.setInq rest).store d x).advance 2 := by
  simp only [execute, ho, hq, State.advance, State.setIp, State.store, State.setInq]

theorem execInput_eq_complete (hsp : Spells w s.fetchWords [dest]) (hw : dest.writable = true) (ho : opcode w = 3) :
    execInput dest s = .next (complete s w (resolve s w 1 [.W])) := by
  rw [resolve_W hsp hw]
  cases hr : resolveW s dest with
  | error c => rw [execInput, hr]; rfl
  | ok d =>
    have hd : writeAddr s 1 dest = .ok d := resolveW_ok_iff.1 hr
    cases hq : s.inq with
    | nil => exact (execInput_of_nil hd hq).trans (congrArg Host.Outcome.next (execute_input_of_nil ho hq).symm)
    | cons x rest =>
      exact (execInput_of_cons hd hq).trans (congrArg Host.Outcome.next (execute_input_of_cons ho hq).symm)

/-- R102: the meaning of an instruction is the pseudocode's RESOLVE, EXECUTE and ADVANCE on the word that spells it. -/
theorem exec_eq_complete (ho : opcode w = i.opcode) (hwf : i.wellFormed = true)
    (hsp : Spells w s.fetchWords i.operands) (hk : paramKinds i.opcode = some kinds) :
    exec i s = .next (complete s w (resolve s w 1 kinds)) := by
  cases i <;> cases hk
  case add => exact execRRW_eq_complete hsp hwf fun _ _ _ => by rw [execute, ho]; rfl
  case mul => exact execRRW_eq_complete hsp hwf fun _ _ _ => by rw [execute, ho]; rfl
  case input => exact execInput_eq_complete hsp hwf ho
  case output =>
    exact execR1_eq_complete (f := fun x => (s.emit x).advance 2) hsp fun _ _ _ => by rw [execute, ho]; rfl
  case jumpIfTrue =>
    exact execJump_eq_complete hsp fun _ _ _ => by
      rw [execute, ho]; exact (if_congr isNonZero_eq_true rfl rfl).symm
  case jumpIfFalse =>
    exact execJump_eq_complete (taken := fun v => !isNonZero v) hsp fun x _ _ => by
      rw [execute, ho]; exact (if_congr (by simp [isNonZero]) rfl rfl).symm
  case lessThan =>
    exact execRRW_eq_complete (f := fun x y => truthWord (decide (x < y))) hsp hwf fun _ _ _ => by
      rw [execute, ho, truthWord_decide]; rfl
  case equals =>
    exact execRRW_eq_complete (f := fun x y => truthWord (decide (x = y))) hsp hwf fun _ _ _ => by
      rw [execute, ho, truthWord_decide]; rfl
  case adjustRelativeBase =>
    exact execR1_eq_complete (f := fun x => (s.adjustBase x).advance 2) hsp fun _ _ _ => by rw [execute, ho]; rfl
  case halt =>
    have hx : execute s w 0 0 0 = s.stop := by rw [execute, ho]; rfl
    exact congrArg Host.Outcome.next hx.symm

/-- Settles O34: the decode phase rejects with the same cause, and a decoded instruction resolves and executes alike. -/
theorem stepFollowsThePseudocode : Obligations.StepFollowsThePseudocode := by
  intro s hs
  unfold Pseudocode.step
  rcases lt_or_ge (s.mem.read s.ip) 0 with hneg | h0
  · rw [if_pos hneg]
    exact step_of_rejection hs (rejection_eq_some.2 (decode_of_neg (ws := s.fetchWords) hneg))
  · rw [if_neg (not_lt.2 h0)]
    dsimp only
    cases hk : paramKinds (opcode (s.mem.read s.ip).toNat) with
    | none => exact step_of_rejection hs (rejection_eq_some.2 (decode_of_paramKinds_none (ws := s.fetchWords) h0 hk))
    | some kinds =>
      dsimp only
      have hrej := rejection_decode (ws := s.fetchWords) h0 hk
      cases hill : illegalMode (s.mem.read s.ip).toNat 1 kinds with
      | some c => exact step_of_rejection hs (hrej.trans hill)
      | none =>
        obtain ⟨i, hi⟩ := rejection_eq_none.1 (hrej.trans hill)
        obtain ⟨-, ho, hwf, hsp⟩ := decode_ok_iff.1 hi
        rw [step_of_decode_ok hs hi, exec_eq_complete ho hwf hsp (ho ▸ hk)]
        rfl

end Sys2Proof.Machine
end

section
/-! SUPPORT. Terminal states under the driver's events, and a machine that steps to itself. -/

namespace Sys2Proof.Machine

variable {s : State}

theorem ne_of_terminal (h : s.state.terminal = true) : s.state ≠ .running ∧ s.state ≠ .awaitingInput := by
  constructor <;> intro hs <;> rw [hs] at h <;> cases h

/-- Settles O47: in a terminal state a call changes nothing and no step is possible, so what is left is a push, which
lengthens the queue, and a return, which moves the mark. -/
theorem onlyResetLeavesATerminalState : Obligations.OnlyResetLeavesATerminalState := by
  intro e x y hx h he
  obtain ⟨hrun, hawait⟩ := ne_of_terminal hx
  cases e with
  | callRun =>
    obtain ⟨-, rfl⟩ := fire_callRun.1 h
    rw [beginRun_of_not_awaiting hawait]
    exact ⟨rfl, (List.append_nil _).symm, absurd rfl⟩
  | engineStep => exact absurd (fire_engineStep.1 h).2.1 hrun
  | returnRun =>
    obtain ⟨-, -, rfl⟩ := fire_returnRun.1 h
    exact ⟨rfl, (List.append_nil _).symm, fun _ => rfl⟩
  | pushInput v =>
    rw [fire_pushInput] at h
    subst h
    exact ⟨rfl, rfl, absurd rfl⟩
  | reset => exact absurd rfl he
  | peek =>
    rw [fire_peek] at h
    subst h
    exact ⟨rfl, (List.append_nil _).symm, absurd rfl⟩

/-- R196: a running machine whose step changes nothing runs on. -/
theorem runLoop_of_step_self (hs : s.state = .running) (h : step s = .next s) (fuel : Nat) :
    runLoop fuel s = none := by
  induction fuel with
  | zero => exact if_pos hs
  | succ fuel ih => rw [runLoop_succ fuel hs h, ih]

/-- R115: the jump sets `ip` to the value it has. -/
theorem step_jump_to_self {x : Word} (hs : s.state = .running) (hx : x ≠ 0)
    (h : decode s.fetchWords = .ok (.jumpIfTrue ⟨.immediate, x⟩ ⟨.immediate, (s.ip : Int)⟩)) :
    step s = .next s :=
  (step_of_decode_ok hs h).trans
    ((jumpsWhen_jumpIfTrue _ _).exec_of_taken rfl rfl hx (Int.natCast_nonneg s.ip))

/-- Settles O55: the jump leaves the machine as it was, so no number of steps ends the loop. -/
theorem aJumpToItselfNeverReturns : Obligations.AJumpToItselfNeverReturns := by
  intro s x hs hx hdec fuel
  rw [run, beginRun_of_not_awaiting (by rw [hs]; nofun),
    runLoop_of_step_self hs (step_jump_to_self hs hx hdec)]
  rfl

end Sys2Proof.Machine
end

section
/-! SUPPORT. Input and output: the faults of the one-operand instructions, the retry of a suspended input, and a push
against a step. -/

namespace Sys2Proof.Machine

/-! ## Faults before effects -/

section
variable {s : State} {a dest : Operand} {c : FaultCause}

theorem execInput_of_error (h : resolveW s dest = .error c) : execInput dest s = .next (s.raise c) := by
  rw [execInput, h]
  rfl

theorem execOutput_of_error (h : readValue s 1 a = .error c) : execOutput a s = .next (s.raise c) := by
  rw [execOutput, h]
  rfl

theorem execAdjustRelativeBase_of_error (h : readValue s 1 a = .error c) :
    execAdjustRelativeBase a s = .next (s.raise c) := by
  rw [execAdjustRelativeBase, h]
  rfl

end

/-- Settles O12: the mode check and the resolution come before any effect. -/
theorem oneOperandFaultsComeFirst : Obligations.OneOperandFaultsComeFirst := fun _ _ _ =>
  ⟨fun hm => execInput_of_error (resolveW_of_immediate hm),
    fun hm hd => execInput_of_error ((resolveW_of_writable hm).trans hd),
    fun ha => ⟨execOutput_of_error ha, execAdjustRelativeBase_of_error ha⟩⟩

/-! ## Suspension and its retry -/

/-- Settles O22. -/
theorem inputSuspendsOnAnEmptyQueue : Obligations.InputSuspendsOnAnEmptyQueue :=
  fun _ _ _ hd hq => execInput_of_nil hd hq

section
variable {s : State} {dest : Operand} {d : Addr}

theorem beginRun_of_awaiting (h : s.state = .awaitingInput) : beginRun s = { s with state := .running } :=
  if_pos h

theorem beginRun_state_of_awaiting (h : s.state = .awaitingInput) : (beginRun s).state = .running := by
  rw [beginRun_of_awaiting h]

/-- R141: suspending undoes the call of `run`. -/
theorem suspend_running (h : s.state = .awaitingInput) : State.suspend { s with state := .running } = s := by
  rw [State.suspend, ← h]

/-- R193: the first step of a `run` on a suspended machine is the instruction it stands at. -/
theorem step_beginRun_of_awaiting {i : Instr} (hs : s.state = .awaitingInput) (h : decode s.fetchWords = .ok i) :
    step (beginRun s) = exec i { s with state := .running } := by
  rw [beginRun_of_awaiting hs]
  exact step_of_decode_ok rfl h

theorem endRun_of_awaiting (h : s.state = .awaitingInput) :
    endRun s = (⟨s.out.drop s.outMark, .awaitingInput, none⟩, { s with outMark := s.out.length }) := by
  simp [endRun, h]

/-- R141, R193: with the queue still empty the retried input suspends again, and the loop is back at `s`. -/
theorem runLoop_beginRun_of_nil (hs : s.state = .awaitingInput) (hdec : decode s.fetchWords = .ok (.input dest))
    (hd : writeAddr s 1 dest = .ok d) (hq : s.inq = []) (fuel : Nat) :
    runLoop (fuel + 1) (beginRun s) = some s := by
  have hstep : step (beginRun s) = .next s := by
    rw [step_beginRun_of_awaiting hs hdec]
    exact (execInput_of_nil (s := { s with state := .running }) hd hq).trans (congrArg _ (suspend_running hs))
  rw [runLoop_succ fuel (beginRun_state_of_awaiting hs) hstep, runLoop_of_not_running fuel (by rw [hs]; nofun)]

end

/-- Settles O53: a sound suspended machine stands at an input whose destination resolves, and the call of `run` makes it
runnable there. -/
theorem runRetriesTheSuspendedInput : Obligations.RunRetriesTheSuspendedInput := by
  intro s hinv hs
  obtain ⟨-, -, dest, d, hdec, hd⟩ := hinv.suspendedAtInput hs
  refine ⟨fun hq fuel => ?_, fun v rest hq => ⟨dest, d, hdec, hd, fun fuel => ?_⟩⟩
  · exact run_eq_some.2 ⟨s, runLoop_beginRun_of_nil hs hdec hd hq fuel, endRun_of_awaiting hs⟩
  · exact runLoop_succ fuel (beginRun_state_of_awaiting hs)
      ((step_beginRun_of_awaiting hs hdec).trans (execInput_of_cons hd hq))

/-! ## A push against a step -/

/-- What the execute phase computes from a machine, and from the same machine with `v` pushed: the same fault, the same
state with `v` pushed, or anything if the first suspends (R143). -/
inductive PushedResult (v : Word) : Except FaultCause State → Except FaultCause State → Prop where
  | fault (c : FaultCause) : PushedResult v (.error c) (.error c)
  | completed (t : State) : PushedResult v (.ok t) (.ok (pushInput v t))
  | suspended (t : State) (r : Except FaultCause State) (ht : t.state = .awaitingInput) : PushedResult v (.ok t) r

/-- Unless the first answer suspends, the second is the first with `v` pushed. -/
def PushedStep (v : Word) (r r' : Host.Outcome State Fault Refusal) : Prop :=
  ∀ t, r = .next t → t.state ≠ .awaitingInput → r' = .next (pushInput v t)

section
variable {s : State} {v : Word}

/-- Resolution does not look at the queue, so both machines go on from the same values. -/
theorem PushedResult.bind {α : Type} {r : Except FaultCause α} {f g : α → Except FaultCause State}
    (h : ∀ x, PushedResult v (f x) (g x)) : PushedResult v (r >>= f) (r >>= g) := by
  cases r with
  | ok x => exact h x
  | error c => exact .fault c

theorem raise_pushInput (c : FaultCause) : (pushInput v s).raise c = pushInput v (s.raise c) := rfl

theorem PushedResult.finish {r r' : Except FaultCause State} (h : PushedResult v r r') :
    PushedStep v (finish s r) (finish (pushInput v s) r') := by
  cases h with
  | fault c =>
    rintro t ⟨⟩ -
    exact congrArg Host.Outcome.next (raise_pushInput c)
  | completed t =>
    rintro _ ⟨⟩ -
    rfl
  | suspended t r ht =>
    rintro _ ⟨⟩ hne
    exact absurd ht hne

theorem execRRW_pushInput (f : Word → Word → Word) (a b dest : Operand) :
    PushedStep v (execRRW f a b dest s) (execRRW f a b dest (pushInput v s)) :=
  PushedResult.finish (.bind fun _ => .completed _)

theorem execJump_pushInput (taken : Word → Bool) (a b : Operand) :
    PushedStep v (execJump taken a b s) (execJump taken a b (pushInput v s)) := by
  refine PushedResult.finish (.bind fun x => ?_)
  dsimp only
  split
  · exact .bind fun _ => .completed _
  · exact .completed _

/-- R143: an element pushed behind the oldest is not the one taken; with the queue empty the step before the push
suspends. -/
theorem execInput_pushInput (dest : Operand) :
    PushedStep v (execInput dest s) (execInput dest (pushInput v s)) := by
  refine PushedResult.finish (.bind fun d => ?_)
  rw [pushInput_inq]
  cases s.inq with
  | nil => exact .suspended _ _ rfl
  | cons x rest => exact .completed (((s.setInq rest).store d x).advance 2)

theorem exec_pushInput (i : Instr) : PushedStep v (exec i s) (exec i (pushInput v s)) := by
  cases i with
  | add a b dest => exact execRRW_pushInput _ a b dest
  | mul a b dest => exact execRRW_pushInput _ a b dest
  | lessThan a b dest => exact execRRW_pushInput (fun x y => truthWord (decide (x < y))) a b dest
  | equals a b dest => exact execRRW_pushInput (fun x y => truthWord (decide (x = y))) a b dest
  | input dest => exact execInput_pushInput dest
  | output a => exact PushedResult.finish (.bind fun _ => .completed _)
  | jumpIfTrue a b => exact execJump_pushInput _ a b
  | jumpIfFalse a b => exact execJump_pushInput (fun x => !isNonZero x) a b
  | adjustRelativeBase a => exact PushedResult.finish (.bind fun _ => .completed _)
  | halt => exact PushedResult.finish (s := s) (.completed s.stop)

theorem fetchWords_pushInput : (pushInput v s).fetchWords = s.fetchWords := fetchWords_congr rfl rfl

theorem step_pushInput (hs : s.state = .running) : PushedStep v (step s) (step (pushInput v s)) := by
  rw [step_of_running hs, step_of_running (s := pushInput v s) hs, fetchWords_pushInput]
  cases decode s.fetchWords with
  | ok i => exact exec_pushInput i
  | error e => exact PushedResult.finish (.fault (decodeCause e))

end

/-- Settles O50: the decode phase and resolution do not look at the queue, and what each instruction then does commutes
with the push unless it suspends. -/
theorem pushAndStepCommute : Obligations.PushAndStepCommute :=
  fun _ t _ hs h => step_pushInput hs t h

end Sys2Proof.Machine
end

section
/-! SUPPORT. A call of `run` as a history of events, and what that history keeps. -/

namespace Sys2Proof.Machine

/-! ## The loop of `run` is a history of engine steps -/

section
variable {s u : State} {fuel n : Nat}

theorem fireAll_append {es es' : List DriverEvent} {x y : Session} :
    Session.fireAll (es ++ es') x = some y ↔
      ∃ z, Session.fireAll es x = some z ∧ Session.fireAll es' z = some y := by
  induction es generalizing x with
  | nil => simp
  | cons e es ih => simp only [List.cons_append, fireAll_cons, ih]; tauto

/-- R100, R191: a history of engine steps goes on only from a running machine. -/
theorem fireAll_engineSteps_succ :
    Session.fireAll (List.replicate (n + 1) .engineStep) ⟨s, true⟩ = some ⟨u, true⟩ ↔
      s.state = .running ∧ ∃ t, step s = .next t ∧
        Session.fireAll (List.replicate n .engineStep) ⟨t, true⟩ = some ⟨u, true⟩ := by
  simp only [List.replicate_succ, fireAll_cons, fire_engineStep]
  constructor
  · rintro ⟨_, ⟨_, hs, t, ht, rfl⟩, h⟩
    exact ⟨hs, t, ht, h⟩
  · rintro ⟨hs, t, ht, h⟩
    exact ⟨⟨t, true⟩, ⟨trivial, hs, t, ht, rfl⟩, h⟩

/-- R192: what the loop does is a history of engine steps that ends outside `running`. -/
theorem fireAll_engineSteps_of_runLoop (h : runLoop fuel s = some u) :
    u.state ≠ .running ∧ ∃ n, n ≤ fuel ∧
      Session.fireAll (List.replicate n .engineStep) ⟨s, true⟩ = some ⟨u, true⟩ := by
  induction fuel generalizing s with
  | zero =>
    by_cases hs : s.state = .running
    · simp [runLoop, hs] at h
    · obtain rfl : s = u := Option.some.inj ((runLoop_of_not_running 0 hs).symm.trans h)
      exact ⟨hs, 0, le_rfl, rfl⟩
  | succ fuel ih =>
    by_cases hs : s.state = .running
    · obtain ⟨t, ht⟩ := everyStepAnswersANextState.2 s
      rw [runLoop_succ fuel hs ht] at h
      obtain ⟨hu, n, hn, hsteps⟩ := ih h
      exact ⟨hu, n + 1, Nat.succ_le_succ hn, fireAll_engineSteps_succ.2 ⟨hs, t, ht, hsteps⟩⟩
    · obtain rfl : s = u := Option.some.inj ((runLoop_of_not_running (fuel + 1) hs).symm.trans h)
      exact ⟨hs, 0, Nat.zero_le _, rfl⟩

/-- R192: the loop follows every history of engine steps that ends outside `running`. -/
theorem runLoop_of_fireAll_engineSteps (hu : u.state ≠ .running) (hn : n ≤ fuel)
    (h : Session.fireAll (List.replicate n .engineStep) ⟨s, true⟩ = some ⟨u, true⟩) : runLoop fuel s = some u := by
  induction n generalizing s fuel with
  | zero =>
    obtain rfl : s = u := by simpa using h
    exact runLoop_of_not_running fuel hu
  | succ n ih =>
    obtain ⟨k, rfl⟩ := Nat.exists_eq_add_of_le' (Nat.one_le_of_lt hn)
    obtain ⟨hs, t, ht, hrest⟩ := fireAll_engineSteps_succ.1 h
    rw [runLoop_succ k hs ht]
    exact ih (Nat.le_of_succ_le_succ hn) hrest

/-- R192: the loop ends in `u` exactly if `u` is the first state that is not running and the steps allowed suffice. -/
theorem runLoop_eq_some_iff :
    runLoop fuel s = some u ↔
      u.state ≠ .running ∧ ∃ n, n ≤ fuel ∧
      Session.fireAll (List.replicate n .engineStep) ⟨s, true⟩ = some ⟨u, true⟩ :=
  ⟨fireAll_engineSteps_of_runLoop, fun ⟨hu, _, hn, h⟩ => runLoop_of_fireAll_engineSteps hu hn h⟩

end

/-- Settles O54: a number of steps that suffices still does when it grows. -/
theorem moreStepsDoNotChangeARun : Obligations.MoreStepsDoNotChangeARun := by
  intro fuel more s r h
  obtain ⟨u, hu, hr⟩ := run_eq_some.1 h
  obtain ⟨hstop, n, hn, hsteps⟩ := runLoop_eq_some_iff.1 hu
  exact run_eq_some.2 ⟨u, runLoop_eq_some_iff.2 ⟨hstop, n, Nat.le_add_right_of_le hn, hsteps⟩, hr⟩

/-- Settles O56: the loop is a history of engine steps, between a call and a return that are both possible. -/
theorem runIsAScheduleOfEvents : Obligations.RunIsAScheduleOfEvents := by
  intro fuel s t r h
  obtain ⟨u, hu, hr⟩ := run_eq_some.1 h
  obtain ⟨hstop, n, hn, hsteps⟩ := runLoop_eq_some_iff.1 hu
  have hcall : Session.fire .callRun ⟨s, false⟩ = some ⟨beginRun s, true⟩ := fire_callRun.2 ⟨rfl, rfl⟩
  have hreturn : Session.fireAll [.returnRun] ⟨u, true⟩ = some ⟨t, false⟩ := by
    simp [fire_returnRun, hstop, hr]
  exact ⟨n, hn, fireAll_cons.2 ⟨_, hcall, fireAll_append.2 ⟨_, hsteps, hreturn⟩⟩⟩

/-! ## What a call of `run` returns -/

section
variable {s t u : State} {fuel : Nat}

/-- R33: no instruction moves the mark. -/
theorem exec_outMark {i : Instr} (h : exec i s = .next t) : t.outMark = s.outMark := by
  cases exec_effect h <;> subst t <;> rfl

theorem step_outMark (h : step s = .next t) : t.outMark = s.outMark := by
  obtain rfl | ⟨-, ⟨c, -, rfl⟩ | ⟨i, -, hx⟩⟩ := step_next_cases h
  · rfl
  · rfl
  · exact exec_outMark hx

/-- R32, R33: the loop only appends to the output, and leaves the mark to the return. -/
theorem runLoop_out (h : runLoop fuel s = some u) : s.out <+: u.out ∧ u.outMark = s.outMark := by
  obtain ⟨-, n, -, hsteps⟩ := runLoop_eq_some_iff.1 h
  refine fireAll_keeps (P := fun x => s.out <+: x.machine.out ∧ x.machine.outMark = s.outMark) ?_
    ⟨List.prefix_rfl, rfl⟩ hsteps
  rintro e he x y ⟨hout, hmark⟩ hy
  obtain rfl := List.eq_of_mem_replicate he
  obtain ⟨-, -, t, ht, rfl⟩ := fire_engineStep.1 hy
  exact ⟨hout.trans (step_out_prefix ht), (step_outMark ht).trans hmark⟩

end

/-- Settles O51: the loop only lengthens the output behind a mark it does not move, and `endRun` returns what follows
the mark. -/
theorem runReturnsTheNewOutput : Obligations.RunReturnsTheNewOutput := by
  intro fuel s t r hmark h
  obtain ⟨u, hu, hr⟩ := run_eq_some.1 h
  obtain ⟨rfl, rfl⟩ := Prod.mk.inj hr
  obtain ⟨hstop, -⟩ := runLoop_eq_some_iff.1 hu
  obtain ⟨hout, hkept⟩ := runLoop_out hu
  rw [beginRun_out] at hout
  rw [beginRun_outMark] at hkept
  refine ⟨?_, rfl, hstop, rfl, fun hf => if_pos hf, fun hf => if_neg hf⟩
  obtain ⟨new, hnew⟩ := hout
  show s.out.take s.outMark ++ u.out.drop u.outMark = u.out
  rw [hkept, ← hnew, List.drop_append_of_le_length hmark, ← List.append_assoc, List.take_append_drop]

/-- Settles O52: outside `running` the loop ends at once. -/
theorem runOnATerminalMachineExecutesNothing : Obligations.RunOnATerminalMachineExecutesNothing := by
  intro fuel s hs
  obtain ⟨hrun, hawait⟩ := ne_of_terminal (s := s) (by simpa [EngineState.terminal] using hs)
  rw [run, beginRun_of_not_awaiting hawait, runLoop_of_not_running fuel hrun]
  rfl

end Sys2Proof.Machine
end

section
/-! SUPPORT. Pipelines: what a delivery and a returning run do to a wire, and what a stuck pipeline is. -/

namespace Sys2Proof.Machine

section
variable {p q : Pipeline} {k : Nat} {x : Session} {w : Wire}

/-- R229: a delivery takes the oldest pending value of its wire to the end of its target's queue, and touches no other
machine and no other wire. -/
theorem deliver_effect (hw : p.wires[k]? = some w) (hx : p.machines[w.dst]? = some x) (h : p.deliver k = some q) :
    ∃ v rest, w.pending = v :: rest ∧
      q.machines[w.dst]? = some ⟨pushInput v x.machine, x.inRun⟩ ∧
      q.wires[k]? = some { w with pending := rest } ∧
      (∀ j, j ≠ w.dst → q.machines[j]? = p.machines[j]?) ∧ ∀ j, j ≠ k → q.wires[j]? = p.wires[j]? := by
  obtain ⟨w', v, rest, x', hw', hv, hx', rfl⟩ := deliver_eq_some.1 h
  obtain rfl := Option.some.inj (hw.symm.trans hw')
  obtain rfl := Option.some.inj (hx.symm.trans hx')
  obtain ⟨hdst, -⟩ := List.getElem?_eq_some_iff.1 hx
  obtain ⟨hk, -⟩ := List.getElem?_eq_some_iff.1 hw
  exact ⟨v, rest, hv, List.getElem?_set_self hdst, List.getElem?_set_self hk,
    fun _ hj => List.getElem?_set_ne hj.symm, fun _ hj => List.getElem?_set_ne hj.symm⟩

/-- What an event of machine `m` does to the wires: each collects the values the event returns. -/
theorem fireAt_wires {m : Nat} {e : DriverEvent} (hw : p.wires[k]? = some w) (hx : p.machines[m]? = some x)
    (h : p.fireAt m e = some q) : q.wires[k]? = some (w.collect m (x.returned e)) := by
  obtain ⟨x', y, hx', -, rfl⟩ := fireAt_eq_some.1 h
  obtain rfl := Option.some.inj (hx.symm.trans hx')
  simp [hw]

theorem collect_self (vs : List Word) : w.collect w.src vs = { w with pending := w.pending ++ vs } := if_pos rfl

/-- R231: what `Pipeline.stuck` tests. -/
theorem stuck_iff :
    p.stuck = true ↔
      (∀ x ∈ p.machines, x.inRun = false ∧ x.machine.inq = [] ∧
        (x.machine.state = .awaitingInput ∨ x.machine.state = .halted)) ∧
      ∀ w ∈ p.wires, w.pending = [] := by
  simp [Pipeline.stuck, and_assoc]

theorem deliver_of_pending_nil (h : ∀ w ∈ p.wires, w.pending = []) (k : Nat) : p.deliver k = none := by
  refine Option.eq_none_iff_forall_ne_some.2 fun q hq => ?_
  obtain ⟨w, v, rest, -, hw, hv, -⟩ := deliver_eq_some.1 hq
  rw [h w (List.mem_of_getElem? hw)] at hv
  cases hv

/-- R193, R195: without input a suspended or halted machine runs to where it is, moving the mark alone. -/
theorem run_of_waiting_or_halted {s : State} (h : s.Inv) (hq : s.inq = [])
    (hs : s.state = .awaitingInput ∨ s.state = .halted) (fuel : Nat) :
    run (fuel + 1) s = some (⟨s.out.drop s.outMark, s.state, none⟩, (endRun s).2) := by
  rcases hs with hs | hs
  · rw [hs]
    exact (runRetriesTheSuspendedInput s h hs).1 hq fuel
  · rw [runOnATerminalMachineExecutesNothing (fuel + 1) s (.inl hs), if_neg (by rw [hs]; nofun)]
    rfl

end

/-- Settles O58: the value a delivery takes from the front of the wire is the one it pushes, and the wires of a machine
collect what its returning run returns. -/
theorem wiresCarryValuesInOrder : Obligations.WiresCarryValuesInOrder := by
  intro p q k w x hw
  refine ⟨fun hx h => ?_, fun hx h => ?_⟩
  · obtain ⟨v, rest, hv, hmachine, hwire, hmachines, hwires⟩ := deliver_effect hw hx h
    have hsame : (x.machine.inq ++ [v]) ++ rest = x.machine.inq ++ w.pending := by simp [hv]
    exact ⟨_, _, hmachine, hwire, hsame, rfl, rfl, rfl, rfl, by simp [hv], hmachines, hwires⟩
  · rw [fireAt_wires hw hx h, collect_self]
    rfl

/-- Settles O59: no wire has a value to deliver, and a settled machine that can only wait again or stay halted has no
output left to return. -/
theorem aStuckPipelineMakesNoProgress : Obligations.AStuckPipelineMakesNoProgress := by
  intro p hstuck hinv
  obtain ⟨hmachines, hwires⟩ := stuck_iff.1 hstuck
  refine ⟨deliver_of_pending_nil hwires, fun x hx fuel => ?_⟩
  obtain ⟨hidle, hq, hs⟩ := hmachines x hx
  obtain ⟨hsound, hsettled⟩ := hinv x hx
  rw [run_of_waiting_or_halted hsound hq hs, hsettled.drop_out hidle, hsettled.endRun_eq hidle]

end Sys2Proof.Machine
end

section
/-! SUPPORT. Pipelines: what an event of one machine leaves as it was. -/

namespace Sys2Proof.Machine

section
variable {p q : Pipeline} {m : Nat} {e : DriverEvent} {w : Wire}

/-- R228: no state is shared, so an event of machine `m` touches no other machine. -/
theorem fireAt_machines_of_ne {j : Nat} (h : p.fireAt m e = some q) (hj : j ≠ m) :
    q.machines[j]? = p.machines[j]? := by
  obtain ⟨x, y, -, -, rfl⟩ := fireAt_eq_some.1 h
  exact List.getElem?_set_ne hj.symm

theorem collect_of_src_ne (vs : List Word) (h : w.src ≠ m) : w.collect m vs = w := if_neg h

/-- R194: no event but a returning `run` hands values to the driver. -/
theorem returned_of_ne_returnRun (x : Session) (h : e ≠ .returnRun) : x.returned e = [] := by
  cases e with
  | returnRun => exact absurd rfl h
  | callRun | engineStep | pushInput _ | reset | peek => rfl

end

/-- Settles O57: an event replaces its own machine alone, and a wire collects what the event returns if it starts at that
machine, and nothing otherwise. -/
theorem machinesAreIsolated : Obligations.MachinesAreIsolated := by
  intro p q m e h
  refine ⟨fun j hj => fireAt_machines_of_ne h hj, fun k w hw => ?_⟩
  obtain ⟨x, -, hx, -⟩ := fireAt_eq_some.1 h
  have hwire : q.wires[k]? = some (w.collect m (x.returned e)) := fireAt_wires hw hx h
  by_cases hsrc : w.src = m
  · subst hsrc
    rw [collect_self] at hwire
    exact ⟨x.returned e, hwire, fun hne => absurd rfl hne, returned_of_ne_returnRun x⟩
  · rw [collect_of_src_ne _ hsrc] at hwire
    exact ⟨[], by simpa using hwire, fun _ => rfl, fun _ => rfl⟩

end Sys2Proof.Machine
end

section
/-! SUPPORT. `reset` reads nothing of a machine but its canonical image and its label. -/

namespace Sys2Proof.Machine

section
variable {s t : State} {image : List (Int × Word)} {identity : Option String}

/-- R255: machines with the same canonical image and the same label are the same machine after `reset`. -/
theorem driverReset_congr (hcanon : s.canon = t.canon) (hidentity : s.identity = t.identity) :
    driverReset s = driverReset t := by
  simp [driverReset, hcanon, hidentity]

/-- R254, R255: the working memory of a new machine is its canonical image, and its registers are those of `reset`. -/
theorem driverReset_newMachine (h : newMachine image identity = some s) : driverReset s = s := by
  obtain ⟨-, rfl⟩ := newMachine_eq_some.1 h
  rfl

@[simp] theorem driverReset_driverReset : driverReset (driverReset s) = driverReset s :=
  driverReset_congr (driverReset_canon s) (driverReset_identity s)

end

/-- Settles O45: no history changes the canonical image or the label, and a new machine is its own reset. -/
theorem resetRestoresTheConstructedMachine : Obligations.ResetRestoresTheConstructedMachine := by
  intro image identity s es x hs hx
  obtain ⟨hcanon, hidentity⟩ := canonicalImageNeverChanges es _ x hx
  have hreset : driverReset x.machine = s :=
    calc driverReset x.machine
      _ = driverReset s := driverReset_congr hcanon hidentity
      _ = s := driverReset_newMachine hs
  exact ⟨hreset, driverReset_driverReset⟩

end Sys2Proof.Machine
end
